-- ==== Sys2Proof/Word.lean ====
section
/-! DEFINITION. The bit-vector types of the block (spec/00_scope.md R8, spec/30_encoding.md R80). -/

namespace Sys2Proof

/-- One byte of the framebuffer region. -/
abbrev Byte := BitVec 8

/-- One request word `q` (spec/30_encoding.md R80). -/
abbrev Request := BitVec 64

/-- One operand field A, B or C of a request (spec/30_encoding.md R80). -/
abbrev Operand := BitVec 16

/-- One pixel, the content of one slot (spec/40_pixel_codec.md R110). -/
abbrev Pixel := BitVec 16

/-- A 4-bit code: an OP field, a response status or a fault cause. -/
abbrev Code := BitVec 4

end Sys2Proof
end

