-- ==== Sys2Proof/Syntax.lean ====
section
/-! DEFINITION. The operations of the block: one constructor per row of spec/opcode_table.json
(spec/30_encoding.md R81, R88). An operand is the field the format gives it (R82); bits of the word that the
format does not use have no place here. -/

namespace Sys2Proof

/-- The 14 operations (spec/30_encoding.md R88). -/
inductive Instr where
  /-- CDEC p (spec/40_pixel_codec.md R116): p is A. -/
  | cdec (p : Pixel)
  /-- CENC r, g, b (R117): r is A[7:0], g is A[15:8], b is B[7:0]. -/
  | cenc (r g b : BitVec 8)
  /-- CX5 v (R118): v is the whole field A, well formed below 32. -/
  | cx5 (v : Operand)
  /-- CX6 v (R119): v is the whole field A, well formed below 64. -/
  | cx6 (v : Operand)
  /-- FGET x, y (spec/41_framebuffer_accessor.md R135): x is A, y is B, both two's complement. -/
  | fget (x y : Operand)
  /-- FSET x, y, p (R136): p is C. -/
  | fset (x y : Operand) (p : Pixel)
  /-- FSETC x, y, p (R137). -/
  | fsetc (x y : Operand) (p : Pixel)
  /-- FWID (R138). -/
  | fwid
  /-- FHGT (R139). -/
  | fhgt
  /-- FSTR (R140). -/
  | fstr
  /-- XMIR (spec/42_transform_engine.md R162). -/
  | xmir
  /-- XGRY (R163). -/
  | xgry
  /-- XINV (R164). -/
  | xinv
  /-- STAT sel (spec/43_capture_controller.md R205): sel is A[0]. -/
  | stat (sel : Bool)
  deriving DecidableEq, Repr

end Sys2Proof
end

