-- ==== Sys2Proof/WellFormed.lean ====
section
/-! DEFINITION. Which terms of `Instr` are instructions of the block. The types of the operands keep every range of
spec/30_encoding.md R100 but two: the channel values of CX5 and CX6, whose upper bits are must-be-zero (R81) because
To8 is defined only below 2^n (spec/40_pixel_codec.md R114). -/

namespace Sys2Proof

/-- The operand ranges of R100 that the operand's type does not already keep. -/
def Instr.wellFormed : Instr → Bool
  | .cx5 v => v.toNat < 32
  | .cx6 v => v.toNat < 64
  | .cdec _ | .cenc _ _ _ | .fget _ _ | .fset _ _ _ | .fsetc _ _ _ | .fwid | .fhgt | .fstr
  | .xmir | .xgry | .xinv | .stat _ => true

end Sys2Proof
end

