-- ==== Sys2Proof/Decode.lean ====
section
/-! DEFINITION. The request decoder, total on every 64-bit word (spec/30_encoding.md R80 to R93), then the encoder
(R100) and the machine-readable opcode table (spec/opcode_table.json). -/

namespace Sys2Proof

/-! ## The fields of a request word (R80) -/

/-- OP, q[3:0]. -/
def opField (q : Request) : Code := q.extractLsb' 0 4

/-- Z0, q[7:4], must be zero. -/
def zeroLow (q : Request) : BitVec 4 := q.extractLsb' 4 4

/-- A, q[23:8]. -/
def fieldA (q : Request) : Operand := q.extractLsb' 8 16

/-- B, q[39:24]. -/
def fieldB (q : Request) : Operand := q.extractLsb' 24 16

/-- C, q[55:40]. -/
def fieldC (q : Request) : Operand := q.extractLsb' 40 16

/-- Z1, q[63:56], must be zero. -/
def zeroHigh (q : Request) : BitVec 8 := q.extractLsb' 56 8

/-! ## The decoder (R91) -/

/-- Why a word is no operation; both make the request raise ILLEGAL_REQUEST. -/
inductive DecodeError where
  /-- OP is 0x0 or 0xF (R90). -/
  | reservedOp
  /-- A must-be-zero bit is 1 (R89). -/
  | mustBeZero
  deriving DecidableEq, Repr

/-- Accept `i` if the bits `used` marks as zero are zero, Z0 and Z1 among them (R89). -/
def accept (q : Request) (unusedZero : Bool) (i : Instr) : Except DecodeError Instr :=
  if zeroLow q = 0 ∧ zeroHigh q = 0 ∧ unusedZero = true then .ok i else .error .mustBeZero

/-- Format N: A, B and C all zero (R81). -/
def zeroABC (q : Request) : Bool := fieldA q = 0 ∧ fieldB q = 0 ∧ fieldC q = 0

/-- Formats DEC, X5, X6 and ST leave B and C zero (R81). -/
def zeroBC (q : Request) : Bool := fieldB q = 0 ∧ fieldC q = 0

/-- DecodeReq(q) (R91), one line per row of the opcode map (R88) with the zero bits of its format (R81). -/
def decode (q : Request) : Except DecodeError Instr :=
  match (opField q).toNat with
  | 0x1 => accept q (zeroBC q) (.cdec (fieldA q))
  | 0x2 => accept q ((fieldB q).extractLsb' 8 8 = 0 ∧ fieldC q = 0)
      (.cenc ((fieldA q).extractLsb' 0 8) ((fieldA q).extractLsb' 8 8) ((fieldB q).extractLsb' 0 8))
  | 0x3 => accept q ((fieldA q).extractLsb' 5 11 = 0 ∧ zeroBC q) (.cx5 (fieldA q))
  | 0x4 => accept q ((fieldA q).extractLsb' 6 10 = 0 ∧ zeroBC q) (.cx6 (fieldA q))
  | 0x5 => accept q (fieldC q = 0) (.fget (fieldA q) (fieldB q))
  | 0x6 => accept q true (.fset (fieldA q) (fieldB q) (fieldC q))
  | 0x7 => accept q true (.fsetc (fieldA q) (fieldB q) (fieldC q))
  | 0x8 => accept q (zeroABC q) .fwid
  | 0x9 => accept q (zeroABC q) .fhgt
  | 0xA => accept q (zeroABC q) .fstr
  | 0xB => accept q (zeroABC q) .xmir
  | 0xC => accept q (zeroABC q) .xgry
  | 0xD => accept q (zeroABC q) .xinv
  | 0xE => accept q ((fieldA q).extractLsb' 1 15 = 0 ∧ zeroBC q) (.stat ((fieldA q).getLsbD 0))
  | _ => .error .reservedOp

/-- The decoder on an instruction's bits as spec/opcode_table.json numbers them. A request is one 64-bit word and is
delivered whole (R80), so the bits are the word. -/
def decodeTableWord (nbits w : Nat) : Option Instr :=
  match decode (BitVec.ofNat 64 (w % 2 ^ nbits)) with
  | .ok i => some i
  | .error _ => none

/-! ## The encoder (R100) -/

/-- The word with the given fields and zero Z0 and Z1 (R80). -/
def word (op : Code) (a b c : Operand) : Request := 0#8 ++ c ++ b ++ a ++ 0#4 ++ op

/-- The operation code of an instruction (R88). -/
def opCode : Instr → Code
  | .cdec _ => 0x1#4
  | .cenc _ _ _ => 0x2#4
  | .cx5 _ => 0x3#4
  | .cx6 _ => 0x4#4
  | .fget _ _ => 0x5#4
  | .fset _ _ _ => 0x6#4
  | .fsetc _ _ _ => 0x7#4
  | .fwid => 0x8#4
  | .fhgt => 0x9#4
  | .fstr => 0xA#4
  | .xmir => 0xB#4
  | .xgry => 0xC#4
  | .xinv => 0xD#4
  | .stat _ => 0xE#4

/-- The word of an instruction, by the table of R100. -/
def encode (i : Instr) : Request :=
  match i with
  | .cdec p => word (opCode i) p 0 0
  | .cenc r g b => word (opCode i) (g ++ r) (0#8 ++ b) 0
  | .cx5 v => word (opCode i) v 0 0
  | .cx6 v => word (opCode i) v 0 0
  | .fget x y => word (opCode i) x y 0
  | .fset x y p => word (opCode i) x y p
  | .fsetc x y p => word (opCode i) x y p
  | .fwid => word (opCode i) 0 0 0
  | .fhgt => word (opCode i) 0 0 0
  | .fstr => word (opCode i) 0 0 0
  | .xmir => word (opCode i) 0 0 0
  | .xgry => word (opCode i) 0 0 0
  | .xinv => word (opCode i) 0 0 0
  | .stat sel => word (opCode i) (if sel then 1 else 0) 0 0

/-! ## The machine-readable table (spec/opcode_table.json) -/

/-- A row's `match` and `mask` as spec/opcode_table.json gives them: (match, mask). -/
def opcodeTable : List (Request × Request) :=
  [(0x0000000000000001#64, 0xFFFFFFFFFF0000FF#64),
   (0x0000000000000002#64, 0xFFFFFFFF000000FF#64),
   (0x0000000000000003#64, 0xFFFFFFFFFFFFE0FF#64),
   (0x0000000000000004#64, 0xFFFFFFFFFFFFC0FF#64),
   (0x0000000000000005#64, 0xFFFFFF00000000FF#64),
   (0x0000000000000006#64, 0xFF000000000000FF#64),
   (0x0000000000000007#64, 0xFF000000000000FF#64),
   (0x0000000000000008#64, 0xFFFFFFFFFFFFFFFF#64),
   (0x0000000000000009#64, 0xFFFFFFFFFFFFFFFF#64),
   (0x000000000000000A#64, 0xFFFFFFFFFFFFFFFF#64),
   (0x000000000000000B#64, 0xFFFFFFFFFFFFFFFF#64),
   (0x000000000000000C#64, 0xFFFFFFFFFFFFFFFF#64),
   (0x000000000000000D#64, 0xFFFFFFFFFFFFFFFF#64),
   (0x000000000000000E#64, 0xFFFFFFFFFFFFFEFF#64)]

end Sys2Proof
end

