-- ==== Sys2Proof/Config.lean ====
section
/-! DEFINITION. The parameters of the block (spec/00_scope.md R7): those the spec fixes have a value, those it
leaves OPEN without a value are constants without a body, and the free values the environment draws are
constants without a body too. -/

namespace Sys2Proof

/-- Width, height and row stride of a frame, in pixels (spec/00_scope.md R7). The hardware has one geometry; the
accessor and transform rules are written for any. -/
structure Geometry where
  width  : Nat
  height : Nat
  stride : Nat
  deriving DecidableEq, Repr

/-- The constraint of R7 on a geometry: 1 ≤ W ≤ S ≤ 32767 and 1 ≤ H ≤ 32767. -/
abbrev Geometry.legal (g : Geometry) : Prop :=
  1 ≤ g.width ∧ g.width ≤ g.stride ∧ g.stride ≤ 32767 ∧ 1 ≤ g.height ∧ g.height ≤ 32767

/-- A local time (spec/43_capture_controller.md R191): 0 ≤ hh ≤ 23, 0 ≤ mm ≤ 59, 0 ≤ ss ≤ 59. -/
structure TimeOfDay where
  hh : Fin 24
  mm : Fin 60
  ss : Fin 60
  deriving DecidableEq, Repr, Inhabited

/-- The order of the two bytes of a slot in memory (spec/20_memory.md R53). -/
inductive ByteOrder where
  | little
  | big
  deriving DecidableEq, Repr, Inhabited

/-- The parameters of the external overlay renderer (R7; spec/43_capture_controller.md R200). -/
structure Renderer where
  /-- OVL_INK, its one ink colour. -/
  ink : Pixel
  /-- OVL_ANCHOR, the column of the first glyph cell. -/
  anchorX : Int
  /-- OVL_ANCHOR, the row of the glyph cells. -/
  anchorY : Int
  /-- OVL_CELL_W, the cursor's advance per character. -/
  cellW : Nat
  /-- OVL_GLYPH: for each character with a glyph its inked points, as columns and rows from the cell's corner. -/
  glyphs : List (Char × List (Nat × Nat))
  deriving DecidableEq, Repr, Inhabited

namespace Config

/-- W = 320, H = 240, S = 512 (R7). -/
def geometry : Geometry := ⟨320, 240, 512⟩

/-- FB_SLOTS = S·H (R7, spec/10_state.md R32). -/
def fbSlots : Nat := 122880

/-- COUNTER_MAX (R7, spec/43_capture_controller.md R197). -/
def counterMax : Nat := 9999

/-- VCTL_ENABLE: the stream is enabled (R7, spec/30_encoding.md R98). -/
def vctlEnable : BitVec 32 := 0x4#32

/-- VCTL_DISABLE: the stream is frozen (R7, spec/30_encoding.md R98). -/
def vctlDisable : BitVec 32 := 0x0#32

/-- VCTL_RESET: what the platform left in the video control register when the block leaves reset. OPEN in R7
(0x4 is assumed there), so nothing here fixes it (DESIGN CHOICE, log entry 7). -/
opaque vctlReset : BitVec 32

/-- Half of FB_BASE; the base address itself is OPEN and must be even (spec/20_memory.md R52; DESIGN CHOICE, log
entry 6). -/
opaque fbBaseHalf : Nat

/-- FB_BASE, the byte address of slot 0 (R7, spec/20_memory.md R52). -/
def fbBase : Nat := 2 * fbBaseHalf

/-- BTN_ADDR, the address of the button register, OPEN (R7; DESIGN CHOICE, log entry 6). -/
opaque btnAddr : Nat

/-- VCTL_ADDR, the address of the video control register, OPEN (R7; DESIGN CHOICE, log entry 6). -/
opaque vctlAddr : Nat

/-- FB_BYTE_ORDER, OPEN, little-endian suggested (spec/20_memory.md R53). No operation of the block can see it
(DESIGN CHOICE, log entry 5). -/
opaque fbByteOrder : ByteOrder

/-- The parameters of the external overlay renderer, OPEN (R7; DESIGN CHOICE, log entry 17). -/
opaque overlayRenderer : Renderer

/-- FREE VALUE. The button register as the n-th free draw gives it (spec/10_state.md R33,
spec/93_implementation_defined.md I5; DESIGN CHOICE, log entry 2). -/
opaque freeButtons : Nat → BitVec 32

/-- FREE VALUE. The time as the n-th free draw gives it (spec/43_capture_controller.md R191,
spec/93_implementation_defined.md I6; DESIGN CHOICE, log entry 2). -/
opaque freeTime : Nat → TimeOfDay

/-- FREE VALUE. The byte at an offset of the framebuffer region as the n-th reset left it
(spec/10_state.md R36, spec/93_implementation_defined.md I3; DESIGN CHOICE, log entry 4). -/
opaque resetByte : Nat → Nat → Byte

end Config

end Sys2Proof
end

