-- ==== Sys2Proof/Machine/State.lean ====
section
/-! DEFINITION. The state record of spec/10_state.md R20, the moves of the agents around the block
(spec/00_scope.md R6), and the state after reset (spec/10_state.md R36). -/

namespace Sys2Proof.Machine

/-- The controller's control state (spec/10_state.md R24). The codes 5 to 7 are never held and have no name
(DEDUCED, log entry 22). -/
inductive Ctl where
  /-- STREAMING, code 0. -/
  | streaming
  /-- CAPTURING, code 1. -/
  | capturing
  /-- FROZEN_OVERLAID, code 2. -/
  | frozenOverlaid
  /-- EDIT_SELECT, code 3. -/
  | editSelect
  /-- HALTED, code 4: entered only on a fault of the controller's own path (spec/60_exceptions.md R236). -/
  | halted
  deriving DecidableEq, Repr

/-- The three causes a fault of the block can have (spec/60_exceptions.md R230). -/
inductive FaultCode where
  /-- OUT_OF_BOUNDS, code 1. -/
  | outOfBounds
  /-- ILLEGAL_REQUEST, code 2. -/
  | illegalRequest
  /-- STATE_VIOLATION, code 3. -/
  | stateViolation
  deriving DecidableEq, Repr

/-- The two classes of requester, fixed by the path a request arrives on (spec/60_exceptions.md R239). -/
inductive Requester where
  | controller
  | servicePort
  deriving DecidableEq, Repr

/-- One entry of the event history (spec/10_state.md R31). -/
inductive Event where
  /-- `vctl(v)`: the block wrote `v` to the video control port. -/
  | vctl (v : BitVec 32)
  /-- `ovl_req(cnt, hh, mm, ss)`: the controller requested an overlay. -/
  | ovlReq (cnt : BitVec 16) (time : TimeOfDay)
  /-- `fault(code, op, a, b)`: a request raised a fault, recorded or not. -/
  | fault (code op : Code) (a b : Operand)
  deriving DecidableEq, Repr

/-- `respond(status, rdata)` (spec/30_encoding.md R95). -/
structure Response where
  status : Code
  rdata  : BitVec 32
  deriving DecidableEq, Repr

/-- The framebuffer region (spec/10_state.md R32): its bytes as pairs of key and byte, keys rising. The low byte of slot
`i` has the key 2i and the high byte 2i+1, so that what the block sees does not depend on FB_BYTE_ORDER. A byte that is
not listed has not been written since the last reset and holds what that reset, the `epoch`-th, left there (DESIGN
CHOICE, log entries 4 and 5). -/
structure Memory where
  epoch : Nat
  cells : List Host.Cell
  deriving DecidableEq, Repr

/-- The one form a memory has: keys strictly rising, each inside the region's 2·FB_SLOTS bytes
(spec/20_memory.md R50). No entry can equal what an unlisted byte reads as, since that one has no recorded
value. -/
abbrev Memory.wf (m : Memory) : Prop :=
  (m.cells.map Prod.fst).Pairwise (· < ·) ∧ ∀ c ∈ m.cells, c.1 < 2 * Config.fbSlots

/-- What an agent can do in one step of the total order (spec/00_scope.md R5, R6; spec/20_memory.md R59). -/
inductive Move where
  /-- The controller's poll step, with the button value it samples and the time it may read
  (spec/43_capture_controller.md R191, R192; DESIGN CHOICE, log entry 15). -/
  | poll (btn : BitVec 32) (time : TimeOfDay)
  /-- A host's request at the service port (spec/00_scope.md R6 (f)). -/
  | request (q : Request)
  /-- The overlay renderer's request at the service port (spec/43_capture_controller.md R199; DEDUCED, log
  entry 18). -/
  | renderer (q : Request)
  /-- The overlay renderer's done step (spec/10_state.md R37). -/
  | rendererDone
  /-- The video input DMA writes one slot (spec/20_memory.md R56). -/
  | dma (slot : Fin Config.fbSlots) (v : Pixel)
  /-- The scan-out reads one slot (spec/20_memory.md R58), between two steps (DEDUCED, log entry 20). -/
  | scanOut (slot : Fin Config.fbSlots)
  /-- Reset (spec/70_reset_and_hazards.md R260). -/
  | reset
  deriving DecidableEq, Repr

/-- Reasons of the step outcome `fault`. No step of this machine answers one: a fault of the spec is a response, a
history event and a record, after which the block goes on (spec/60_exceptions.md R233), so it is a next state. -/
inductive Fault where
  /-- The state is HALTED. Raised by no step; `Sys2Proof.Safety.stateFault` gives it to a HALTED state, because
  spec/43_capture_controller.md R202 has a model treat such a state as a fault. Safe (DEDUCED, log entry 11). -/
  | halted
  deriving DecidableEq, Repr

/-- Reasons of the step outcome `refused`: moves the spec does not admit (spec/93_implementation_defined.md,
treatment "refuse"). No instruction is refused. -/
inductive Refusal where
  /-- An instruction without a meaning; raised by no arm of `exec`. Safe. -/
  | notModelled (mnemonic : String)
  /-- The DMA takes no step while the stream is not enabled (spec/20_memory.md R56). Raised by the move `dma`.
  Safe. -/
  | dmaWhileFrozen
  /-- The renderer takes no step outside its window (spec/43_capture_controller.md R199;
  spec/93_implementation_defined.md I9). Raised by the moves `renderer` and `rendererDone`. Safe. -/
  | rendererOutsideWindow
  /-- The renderer writes only through FSETC (spec/43_capture_controller.md R200;
  spec/93_implementation_defined.md I9). Raised by the move `renderer` with an FSET word. Safe. -/
  | rendererWriteNotClipped
  /-- The renderer changes only the pixels of the overlay, to OVL_INK (spec/43_capture_controller.md R200). Raised by the
  move `renderer` with an FSETC word of another colour, or for another pixel, inside the frame. Safe. -/
  | rendererOutsideOverlay
  /-- Every pixel of the overlay has become OVL_INK by the done step (spec/43_capture_controller.md R200). Raised by the
  move `rendererDone` while one has not been drawn. Safe. -/
  | rendererNotFinished
  deriving DecidableEq, Repr

/-- The state record (spec/10_state.md R20), and after it the model's own bookkeeping (log entries 1 to 3, 17
and 23). -/
structure State where
  /-- s.ctl, control state (R24). -/
  ctl : Ctl
  /-- s.dbw, debounce wait mask (R25). -/
  dbw : BitVec 4
  /-- s.ovl, overlay pending (R26). -/
  ovl : Bool
  /-- s.ovl_done, overlay done (R37). -/
  ovlDone : Bool
  /-- s.cnt, picture counter (R27). -/
  cnt : BitVec 16
  /-- s.flt_cause, cause of the first fault since reset (R28). -/
  fltCause : Code
  /-- s.flt_op, operation code of the first fault (R29). -/
  fltOp : Code
  /-- s.flt_x, field A of the first fault (R29). -/
  fltX : Operand
  /-- s.flt_y, field B of the first fault (R29). -/
  fltY : Operand
  /-- s.vctl, the video control port's last value (R30). -/
  vctl : BitVec 32
  /-- s.fb, the framebuffer region (R32). -/
  fb : Memory
  /-- s.hist, the event history, oldest first (R31). -/
  hist : List Event
  /-- MODEL: the moves the agents make next, in the total order of spec/20_memory.md R59 (DESIGN CHOICE, log
  entry 1). -/
  moves : List Move
  /-- MODEL: the parameters of the external overlay renderer, which no step changes (DESIGN CHOICE, log entry 17). -/
  renderer : Renderer
  /-- MODEL: the time of the last overlay request, whose counter value is `cnt` (DESIGN CHOICE, log entry 23). -/
  ovlTime : TimeOfDay
  /-- MODEL: the slots of that overlay for which the renderer has issued its FSETC (DESIGN CHOICE, log entry 23). -/
  inked : List Nat
  /-- MODEL: how many free draws of the environment have been made (DESIGN CHOICE, log entry 2). -/
  draws : Nat
  /-- MODEL: the response the last step gave at the service port or to the controller, if any (DESIGN CHOICE, log
  entry 3). -/
  resp : Option Response
  deriving DecidableEq, Repr

/-- The state after reset (spec/10_state.md R36, spec/70_reset_and_hazards.md R260). Every slot holds an unspecified
value: nothing is listed. -/
def State.reset : State where
  ctl := .streaming
  dbw := 0
  ovl := false
  ovlDone := false
  cnt := 0
  fltCause := 0
  fltOp := 0
  fltX := 0
  fltY := 0
  vctl := Config.vctlReset
  fb := ⟨0, []⟩
  hist := []
  moves := []
  renderer := Config.overlayRenderer
  ovlTime := ⟨0, 0, 0⟩
  inked := []
  draws := 0
  resp := none

end Sys2Proof.Machine
end

