-- ==== Sys2Proof/Machine/Flags.lean ====
section
/-! DEFINITION. The block has no condition flags (spec/10_state.md R23); what a request reports is its response's
status and rdata (spec/30_encoding.md R95, R96). The codes and the rdata layouts stand here. -/

namespace Sys2Proof.Machine

/-- The 3-bit code of a control state (spec/10_state.md R24). -/
def Ctl.code : Ctl → BitVec 3
  | .streaming => 0
  | .capturing => 1
  | .frozenOverlaid => 2
  | .editSelect => 3
  | .halted => 4

/-- Status OK (spec/60_exceptions.md R230). -/
def statusOk : Code := 0

/-- The cause code of a fault (spec/60_exceptions.md R230). -/
def FaultCode.code : FaultCode → Code
  | .outOfBounds => 1
  | .illegalRequest => 2
  | .stateViolation => 3

/-- rdata of CDEC: r in [4:0], g in [13:8], b in [20:16] (spec/30_encoding.md R96). -/
def channelData (r g b : Nat) : BitVec 32 := BitVec.ofNat 32 (b <<< 16 ||| g <<< 8 ||| r)

/-- rdata of STAT 0 (spec/43_capture_controller.md R205). -/
def statusData (s : State) : BitVec 32 :=
  s.cnt ++ s.fltOp ++ s.fltCause ++ s.dbw ++ BitVec.ofBool s.ovl ++ s.ctl.code

/-- rdata of STAT 1 (spec/43_capture_controller.md R205). -/
def faultOperandData (s : State) : BitVec 32 := s.fltY ++ s.fltX

end Sys2Proof.Machine
end

