-- ==== Sys2Proof/Machine/Ops.lean ====
section
/-! DEFINITION. The named operations over the framebuffer region and the registers (spec/00_scope.md R9), and what
a fault does (spec/60_exceptions.md R233). There is no return from a fault (R235). -/

namespace Sys2Proof.Machine

/-! ## The framebuffer region -/

/-- The recorded byte of a key, if there is one. -/
def cellRead (k : Nat) : List Host.Cell → Option Byte
  | [] => none
  | c :: rest => if c.1 = k then some c.2 else cellRead k rest

/-- Record a byte under a key, keeping the keys rising. -/
def cellWrite (k : Nat) (v : Byte) : List Host.Cell → List Host.Cell
  | [] => [(k, v)]
  | c :: rest =>
    if k < c.1 then (k, v) :: c :: rest
    else if k = c.1 then (k, v) :: rest
    else c :: cellWrite k v rest

/-- The byte of a key. One that nothing has written since the last reset has the unspecified
value that reset left (spec/10_state.md R36; DESIGN CHOICE, log entry 4). -/
def Memory.byte (m : Memory) (k : Nat) : Byte := (cellRead k m.cells).getD (Config.resetByte m.epoch k)

/-- MemRead(i, 2): slot `i` whole (spec/00_scope.md R9, spec/20_memory.md R55). -/
def memRead (m : Memory) (i : Nat) : Pixel := m.byte (2 * i + 1) ++ m.byte (2 * i)

/-- MemWrite(i, 2, v): slot `i` whole (spec/00_scope.md R9, spec/20_memory.md R55). -/
def memWrite (m : Memory) (i : Nat) (v : Pixel) : Memory :=
  { m with cells := cellWrite (2 * i + 1) (v.extractLsb' 8 8) (cellWrite (2 * i) (v.extractLsb' 0 8) m.cells) }

/-- The byte address of slot `i` (spec/20_memory.md R52). The block itself never forms one. -/
def slotAddress (i : Nat) : Nat := Config.fbBase + 2 * i

/-- The key of the byte at a byte offset from FB_BASE, under a byte order (spec/20_memory.md R53). -/
def cellKey (order : ByteOrder) (offset : Nat) : Nat :=
  match order with
  | .little => offset
  | .big => if offset % 2 = 0 then offset + 1 else offset - 1

/-- The byte that an agent reading the region by bytes finds at a byte address, if the address lies in the region
(spec/20_memory.md R52, R53). -/
def Memory.busByteIn (order : ByteOrder) (m : Memory) (addr : Nat) : Option Byte :=
  if Config.fbBase ≤ addr ∧ addr < Config.fbBase + 2 * Config.fbSlots
  then some (m.byte (cellKey order (addr - Config.fbBase))) else none

/-- The byte at a byte address under the platform's byte order. -/
def Memory.busByte (m : Memory) (addr : Nat) : Option Byte := m.busByteIn Config.fbByteOrder addr

/-! ## Responses, events and the video control port -/

/-- respond(status, rdata) (spec/30_encoding.md R95). -/
def State.respond (s : State) (status : Code) (rdata : BitVec 32) : State :=
  { s with resp := some ⟨status, rdata⟩ }

/-- Append one event to the history (spec/10_state.md R31). -/
def State.record (s : State) (e : Event) : State := { s with hist := s.hist ++ [e] }

/-- VctlWrite(v) (spec/10_state.md R31). -/
def State.vctlWrite (s : State) (v : BitVec 32) : State := { s with vctl := v, hist := s.hist ++ [.vctl v] }

/-- Give the framebuffer region new contents. -/
def State.withFrame (s : State) (m : Memory) : State := { s with fb := m }

/-! ## Faults -/

/-- The sticky first-fault record (spec/10_state.md R28, R29): written only while no fault is recorded. -/
def State.recordFirstFault (s : State) (code op : Code) (a b : Operand) : State :=
  if s.fltCause = 0 then { s with fltCause := code, fltOp := op, fltX := a, fltY := b } else s

/-- raise Fault(code, (op, a, b)) (spec/60_exceptions.md R233): the event, the first-fault record, the response.
It is applied to the state before the operation, so nothing the operation would have written is written. -/
def State.raiseFault (s : State) (code : FaultCode) (op : Code) (a b : Operand) : State :=
  ((s.record (.fault code.code op a b)).recordFirstFault code.code op a b).respond code.code 0

/-- EnterHalted(s) (spec/60_exceptions.md R236). -/
def State.enterHalted (s : State) : State := { s with ctl := .halted, dbw := 0 }

end Sys2Proof.Machine
end

