-- ==== Sys2Proof/Machine/Operands.lean ====
section
/-! DEFINITION. Operand assembly (spec/30_encoding.md R82), the bounds predicate and the slot of a pixel
(spec/41_framebuffer_accessor.md R131, spec/20_memory.md R51). -/

namespace Sys2Proof.Machine

/-- sint16(v): a 16-bit field as two's complement (spec/30_encoding.md R82). -/
def sint16 (v : Operand) : Int := v.toInt

/-- InBounds(x, y) over signed integers (spec/41_framebuffer_accessor.md R131). -/
def inBounds (g : Geometry) (x y : Int) : Bool := 0 ≤ x ∧ x < g.width ∧ 0 ≤ y ∧ y < g.height

/-- idx(x, y) = y·S + x (spec/20_memory.md R51). -/
def slotIndex (g : Geometry) (x y : Nat) : Nat := y * g.stride + x

end Sys2Proof.Machine
end

