-- ==== Sys2Proof/Machine/Accessor.lean ====
section
/-! DEFINITION. The framebuffer accessor (spec/41_framebuffer_accessor.md): Get, Set and SetClip, and the operations
FGET, FSET, FSETC, FWID, FHGT and FSTR. -/

namespace Sys2Proof.Machine

/-- Get(x, y) (spec/41_framebuffer_accessor.md R132). -/
def getPixel (g : Geometry) (m : Memory) (x y : Int) : Except FaultCode Pixel :=
  if inBounds g x y then .ok (memRead m (slotIndex g x.toNat y.toNat)) else .error .outOfBounds

/-- Set(x, y, p) (spec/41_framebuffer_accessor.md R133). -/
def setPixel (g : Geometry) (m : Memory) (x y : Int) (p : Pixel) : Except FaultCode Memory :=
  if inBounds g x y then .ok (memWrite m (slotIndex g x.toNat y.toNat) p) else .error .outOfBounds

/-- SetClip(x, y, p) (spec/41_framebuffer_accessor.md R134). -/
def setClip (g : Geometry) (m : Memory) (x y : Int) (p : Pixel) : Memory :=
  if inBounds g x y then memWrite m (slotIndex g x.toNat y.toNat) p else m

/-- FGET x, y (spec/41_framebuffer_accessor.md R135). -/
def execFget (x y : Operand) (s : State) : Host.Outcome State Fault Refusal :=
  match getPixel Config.geometry s.fb (sint16 x) (sint16 y) with
  | .ok p => .next (s.respond statusOk (p.setWidth 32))
  | .error c => .next (s.raiseFault c 0x5 x y)

/-- FSET x, y, p (spec/41_framebuffer_accessor.md R136). -/
def execFset (x y : Operand) (p : Pixel) (s : State) : Host.Outcome State Fault Refusal :=
  match setPixel Config.geometry s.fb (sint16 x) (sint16 y) p with
  | .ok m => .next ((s.withFrame m).respond statusOk 0)
  | .error c => .next (s.raiseFault c 0x6 x y)

/-- FSETC x, y, p (spec/41_framebuffer_accessor.md R137). -/
def execFsetc (x y : Operand) (p : Pixel) (s : State) : Host.Outcome State Fault Refusal :=
  .next ((s.withFrame (setClip Config.geometry s.fb (sint16 x) (sint16 y) p)).respond statusOk 0)

/-- FWID (spec/41_framebuffer_accessor.md R138). -/
def execFwid (s : State) : Host.Outcome State Fault Refusal :=
  .next (s.respond statusOk (BitVec.ofNat 32 Config.geometry.width))

/-- FHGT (spec/41_framebuffer_accessor.md R139). -/
def execFhgt (s : State) : Host.Outcome State Fault Refusal :=
  .next (s.respond statusOk (BitVec.ofNat 32 Config.geometry.height))

/-- FSTR (spec/41_framebuffer_accessor.md R140). -/
def execFstr (s : State) : Host.Outcome State Fault Refusal :=
  .next (s.respond statusOk (BitVec.ofNat 32 Config.geometry.stride))

end Sys2Proof.Machine
end

