-- ==== Sys2Proof/Machine/Codec.lean ====
section
/-! DEFINITION. The pixel codec (spec/40_pixel_codec.md): its three functions and the operations CDEC, CENC, CX5 and
CX6. -/

namespace Sys2Proof.Machine

/-- The three channels of a pixel, unsigned (spec/40_pixel_codec.md R110). -/
structure Channels where
  r : Nat
  g : Nat
  b : Nat
  deriving DecidableEq, Repr

/-- Decode(p) (spec/40_pixel_codec.md R111), with the channel places of R110 (PRESUMED, log entry 8). -/
def decodePixel (p : Pixel) : Channels :=
  ⟨p.toNat >>> 11 &&& 0x1F, p.toNat >>> 5 &&& 0x3F, p.toNat &&& 0x1F⟩

/-- Encode(r, g, b) (spec/40_pixel_codec.md R112): inputs beyond a channel's width lose their upper bits (R113). -/
def encodePixel (r g b : Nat) : Pixel :=
  BitVec.ofNat 16 ((r &&& 0x1F) <<< 11 ||| (g &&& 0x3F) <<< 5 ||| (b &&& 0x1F))

/-- To8(v, n) (spec/40_pixel_codec.md R114), used only for n = 5, 6 and v < 2^n. -/
def to8 (v n : Nat) : Nat := v <<< (8 - n) ||| v >>> (2 * n - 8)

/-- CDEC p (spec/40_pixel_codec.md R116). -/
def execCdec (p : Pixel) (s : State) : Host.Outcome State Fault Refusal :=
  let c := decodePixel p
  .next (s.respond statusOk (channelData c.r c.g c.b))

/-- CENC r, g, b (spec/40_pixel_codec.md R117). -/
def execCenc (r g b : BitVec 8) (s : State) : Host.Outcome State Fault Refusal :=
  .next (s.respond statusOk ((encodePixel r.toNat g.toNat b.toNat).setWidth 32))

/-- CX5 v (spec/40_pixel_codec.md R118): v ≥ 32 sets must-be-zero bits of A and raises ILLEGAL_REQUEST
(DEDUCED, log entry 14). -/
def execCx5 (v : Operand) (s : State) : Host.Outcome State Fault Refusal :=
  if v.toNat < 32 then .next (s.respond statusOk (BitVec.ofNat 32 (to8 v.toNat 5)))
  else .next (s.raiseFault .illegalRequest 0x3 v 0)

/-- CX6 v (spec/40_pixel_codec.md R119): v ≥ 64 sets must-be-zero bits of A and raises ILLEGAL_REQUEST
(DEDUCED, log entry 14). -/
def execCx6 (v : Operand) (s : State) : Host.Outcome State Fault Refusal :=
  if v.toNat < 64 then .next (s.respond statusOk (BitVec.ofNat 32 (to8 v.toNat 6)))
  else .next (s.raiseFault .illegalRequest 0x4 v 0)

end Sys2Proof.Machine
end

