-- ==== Sys2Proof/Machine/Status.lean ====
section
/-! DEFINITION. The status read STAT (spec/43_capture_controller.md R205). -/

namespace Sys2Proof.Machine

/-- STAT sel (spec/43_capture_controller.md R205): reads the state, changes none of it, and in particular does not
clear the fault record. -/
def execStat (sel : Bool) (s : State) : Host.Outcome State Fault Refusal :=
  .next (s.respond statusOk (if sel then faultOperandData s else statusData s))

end Sys2Proof.Machine
end

