-- ==== Sys2Proof/Machine/Transform.lean ====
section
/-! DEFINITION. The image transform engine (spec/42_transform_engine.md): the three whole-frame loops and the
operations XMIR, XGRY and XINV. A loop is a walk along a list of coordinates in the order of R165. -/

namespace Sys2Proof.Machine

/-! ## The order of the walk (R165) -/

/-- Columns `0 .. n-1` of every row: rows in order, inside a row x increasing. Irreducible, so that no proof unrolls
a walk over a whole frame by accident. -/
@[irreducible] def rowMajor (n height : Nat) : List (Nat × Nat) :=
  (List.range height).flatMap fun y => (List.range n).map fun x => (x, y)

/-- The pixels XGRY and XINV visit. -/
def frameOrder (g : Geometry) : List (Nat × Nat) := rowMajor g.width g.height

/-- The left pixels of the pairs XMIR visits: x in [0, W div 2). -/
def mirrorOrder (g : Geometry) : List (Nat × Nat) := rowMajor (g.width / 2) g.height

/-! ## Pixel functions -/

/-- gray8 (R163): the truncated mean of the channels expanded to 8 bits. -/
def gray8 (p : Pixel) : Nat :=
  let c := decodePixel p
  (to8 c.r 5 + to8 c.g 6 + to8 c.b 5) / 3

/-- The pixel XGRY writes for a given gray8 (R163). -/
def grayPixelOf (k : Nat) : Pixel := encodePixel (k >>> 3) (k >>> 2) (k >>> 3)

/-- The new value of a pixel under XGRY (R163). -/
def grayPixel (p : Pixel) : Pixel := grayPixelOf (gray8 p)

/-- The new value of a pixel under XINV (R164). -/
def invertPixel (p : Pixel) : Pixel :=
  let c := decodePixel p
  encodePixel (31 - c.r) (63 - c.g) (31 - c.b)

/-! ## The walks -/

/-- One pixel read, then written (R163, R164). The coordinate is in bounds (R169), so Get and Set are the plain
accesses to its slot (DEDUCED, log entry 13). -/
def mapAt (g : Geometry) (f : Pixel → Pixel) (m : Memory) (c : Nat × Nat) : Memory :=
  memWrite m (slotIndex g c.1 c.2) (f (memRead m (slotIndex g c.1 c.2)))

/-- One pair of XMIR (R162): read at x, read at W-1-x, written at x, then written at W-1-x. -/
def swapAt (g : Geometry) (m : Memory) (c : Nat × Nat) : Memory :=
  let i := slotIndex g c.1 c.2
  let j := slotIndex g (g.width - 1 - c.1) c.2
  let t := memRead m i
  let u := memRead m j
  memWrite (memWrite m i u) j t

/-- XMIR's loop (R162). -/
def mirrorFrame (g : Geometry) (m : Memory) : Memory := (mirrorOrder g).foldl (swapAt g) m

/-- XGRY's loop (R163). -/
def grayFrame (g : Geometry) (m : Memory) : Memory := (frameOrder g).foldl (mapAt g grayPixel) m

/-- XINV's loop (R164). -/
def invertFrame (g : Geometry) (m : Memory) : Memory := (frameOrder g).foldl (mapAt g invertPixel) m

/-! ## The same walks with the accessor's bounds check in every access, word for word as R162 to R164 have it; no
operation runs them. That they never fault and give the walks above is R169. -/

/-- One pixel of XGRY or XINV through Get and Set. -/
def mapAtChecked (g : Geometry) (f : Pixel → Pixel) (m : Memory) (c : Nat × Nat) : Except FaultCode Memory := do
  let p ← getPixel g m c.1 c.2
  setPixel g m c.1 c.2 (f p)

/-- One pair of XMIR through Get and Set. -/
def swapAtChecked (g : Geometry) (m : Memory) (c : Nat × Nat) : Except FaultCode Memory := do
  let t ← getPixel g m c.1 c.2
  let u ← getPixel g m ((g.width : Int) - 1 - c.1) c.2
  let m ← setPixel g m c.1 c.2 u
  setPixel g m ((g.width : Int) - 1 - c.1) c.2 t

/-- XMIR's loop through Get and Set. -/
def mirrorFrameChecked (g : Geometry) (m : Memory) : Except FaultCode Memory :=
  (mirrorOrder g).foldlM (swapAtChecked g) m

/-- XGRY's loop through Get and Set. -/
def grayFrameChecked (g : Geometry) (m : Memory) : Except FaultCode Memory :=
  (frameOrder g).foldlM (mapAtChecked g grayPixel) m

/-- XINV's loop through Get and Set. -/
def invertFrameChecked (g : Geometry) (m : Memory) : Except FaultCode Memory :=
  (frameOrder g).foldlM (mapAtChecked g invertPixel) m

/-! ## The operations -/

/-- A transform executes only in EDIT_SELECT (R161); then it runs to completion (R160) and responds OK. -/
def transform (op : Code) (run : Memory → Memory) (s : State) : State :=
  if s.ctl = .editSelect then (s.withFrame (run s.fb)).respond statusOk 0
  else s.raiseFault .stateViolation op 0 0

/-- XMIR (R162). -/
def execXmir (s : State) : Host.Outcome State Fault Refusal :=
  .next (transform 0xB (mirrorFrame Config.geometry) s)

/-- XGRY (R163). -/
def execXgry (s : State) : Host.Outcome State Fault Refusal :=
  .next (transform 0xC (grayFrame Config.geometry) s)

/-- XINV (R164). -/
def execXinv (s : State) : Host.Outcome State Fault Refusal :=
  .next (transform 0xD (invertFrame Config.geometry) s)

end Sys2Proof.Machine
end

