-- ==== Sys2Proof/Machine/Dispatch.lean ====
section
/-! DEFINITION. What each operation does, once a request has been decoded and its requester admitted
(spec/30_encoding.md R88). -/

namespace Sys2Proof.Machine

def exec (i : Instr) (s : State) : Host.Outcome State Fault Refusal :=
  match i with
  | .cdec p => Sys2Proof.Machine.execCdec p s
  | .cenc r g b => Sys2Proof.Machine.execCenc r g b s
  | .cx5 v => Sys2Proof.Machine.execCx5 v s
  | .cx6 v => Sys2Proof.Machine.execCx6 v s
  | .fget x y => Sys2Proof.Machine.execFget x y s
  | .fset x y p => Sys2Proof.Machine.execFset x y p s
  | .fsetc x y p => Sys2Proof.Machine.execFsetc x y p s
  | .fwid => Sys2Proof.Machine.execFwid s
  | .fhgt => Sys2Proof.Machine.execFhgt s
  | .fstr => Sys2Proof.Machine.execFstr s
  | .xmir => Sys2Proof.Machine.execXmir s
  | .xgry => Sys2Proof.Machine.execXgry s
  | .xinv => Sys2Proof.Machine.execXinv s
  | .stat sel => Sys2Proof.Machine.execStat sel s

end Sys2Proof.Machine
end

