-- ==== Sys2Proof/Machine/Port.lean ====
section
/-! DEFINITION. How a request is served: acceptance, decode, the requester check, then the operation
(spec/30_encoding.md R91, R92; spec/60_exceptions.md R232, R236, R239). -/

namespace Sys2Proof.Machine

/-- Which operations only the controller's path may issue (spec/30_encoding.md R92). -/
def controllerOnly : Instr → Bool
  | .xmir | .xgry | .xinv => true
  | .cdec _ | .cenc _ _ _ | .cx5 _ | .cx6 _ | .fget _ _ | .fset _ _ _ | .fsetc _ _ _ | .fwid | .fhgt | .fstr
  | .stat _ => false

/-- The fault of a request that is no operation for its requester, with the raw fields of the word recorded
(spec/60_exceptions.md R231). -/
def State.illegalRequest (s : State) (q : Request) : State :=
  s.raiseFault .illegalRequest (opField q) (fieldA q) (fieldB q)

/-- One accepted request: decode, then the requester check, then the operation (spec/60_exceptions.md R232). -/
def issue (who : Requester) (q : Request) (s : State) : Host.Outcome State Fault Refusal :=
  match decode q with
  | .error _ => .next (s.illegalRequest q)
  | .ok i => if who = .servicePort ∧ controllerOnly i = true then .next (s.illegalRequest q) else exec i s

/-- Whether the word is the operation STAT. -/
def isStat (q : Request) : Bool :=
  match decode q with
  | .ok (.stat _) => true
  | _ => false

/-- A request at the service port. In HALTED only STAT is accepted; any other request is not accepted, gets no
response and changes nothing (spec/60_exceptions.md R236; DEDUCED, log entry 10). -/
def serveRequest (q : Request) (s : State) : Host.Outcome State Fault Refusal :=
  if s.ctl = .halted ∧ isStat q = false then .next s else issue .servicePort q s

end Sys2Proof.Machine
end

