-- ==== Sys2Proof/Machine/Controller.lean ====
section
/-! DEFINITION. The frame capture controller (spec/43_capture_controller.md): one poll step, and the transitions of
its states. -/

namespace Sys2Proof.Machine

/-- What a poll acts on (spec/43_capture_controller.md R193). -/
inductive ButtonEvent where
  | capture
  | mirror
  | grayscale
  | invert
  | none
  deriving DecidableEq, Repr

/-- BtnEvent(btn), the lowest set bit of the four (spec/43_capture_controller.md R193; log entry 8). -/
def buttonEvent (btn : BitVec 32) : ButtonEvent :=
  if btn.getLsbD 0 then .capture
  else if btn.getLsbD 1 then .mirror
  else if btn.getLsbD 2 then .grayscale
  else if btn.getLsbD 3 then .invert
  else .none

/-- WrapInc(c) (spec/43_capture_controller.md R197). -/
def wrapInc (c : BitVec 16) : BitVec 16 := if Config.counterMax ≤ c.toNat then 0 else c + 1

/-- StepStreaming (spec/43_capture_controller.md R195). -/
def stepStreaming (btn : BitVec 32) (s : State) : State :=
  if btn.getLsbD 0 then { s.vctlWrite Config.vctlDisable with ctl := .capturing, dbw := 0x1 } else s

/-- StepCapturing (spec/43_capture_controller.md R196). The overlay request hands the renderer the counter and the time,
and nothing of that overlay is drawn yet (R199). -/
def stepCapturing (time : TimeOfDay) (s : State) : State :=
  if s.ovl = false then
    { s.record (.ovlReq (wrapInc s.cnt) time) with
      cnt := wrapInc s.cnt, ovl := true, ovlDone := false, ovlTime := time, inked := [] }
  else if s.ovlDone = true then { s with ovl := false, ovlDone := false, ctl := .frozenOverlaid }
  else s

/-- After Exec(op) of R198: the controller takes the response (DESIGN CHOICE, log entry 19); OK starts the
debounce wait for the event's bit, any other status halts (spec/60_exceptions.md R236). -/
def afterTransform (wait : BitVec 4) (s : State) : State :=
  let t := { s with resp := none }
  if (s.resp.map Response.status) = some statusOk then { t with dbw := wait } else t.enterHalted

/-- Exec(op) on the controller's internal path, then the debounce wait (spec/43_capture_controller.md R198). -/
def runTransform (i : Instr) (wait : BitVec 4) (s : State) : Host.Outcome State Fault Refusal :=
  match issue .controller (encode i) s with
  | .next t => .next (afterTransform wait t)
  | .fault f => .fault f
  | .refused r => .refused r

/-- StepEditSelect (spec/43_capture_controller.md R198). -/
def stepEditSelect (btn : BitVec 32) (s : State) : Host.Outcome State Fault Refusal :=
  match buttonEvent btn with
  | .capture => .next { s.vctlWrite Config.vctlEnable with ctl := .streaming, dbw := 0x1 }
  | .mirror => runTransform .xmir 0x2 s
  | .grayscale => runTransform .xgry 0x4 s
  | .invert => runTransform .xinv 0x8 s
  | .none => .next s

/-- The debounce spin (spec/43_capture_controller.md R194): clear the wait once the bit waited for reads 0 (log
entries 8 and 21). -/
def stepDebounce (btn : BitVec 32) (s : State) : State :=
  if btn.extractLsb' 0 4 &&& s.dbw = 0 then { s with dbw := 0 } else s

/-- CtlStep(s, btn, time) (spec/43_capture_controller.md R192). -/
def pollStep (btn : BitVec 32) (time : TimeOfDay) (s : State) : Host.Outcome State Fault Refusal :=
  if s.ctl = .halted then .next s
  else if s.dbw ≠ 0 then .next (stepDebounce btn s)
  else
    match s.ctl with
    | .streaming => .next (stepStreaming btn s)
    | .capturing => .next (stepCapturing time s)
    | .frozenOverlaid => .next { s with ctl := .editSelect }
    | .editSelect => stepEditSelect btn s
    | .halted => .next s

end Sys2Proof.Machine
end

