-- ==== Sys2Proof/Machine/Overlay.lean ====
section
/-! DEFINITION. What the overlay renderer draws for one overlay request (spec/43_capture_controller.md R199, R200): the
text, its cells, the set M of visible pixels they ink, and one way of drawing it. The glyph shapes, the anchor, the cell
width and the ink are the renderer's own and OPEN (spec/00_scope.md R7), so everything here is for any renderer. -/

namespace Sys2Proof.Machine

/-- Two decimal digits. -/
def twoDigits (n : Nat) : List Char := [Nat.digitChar (n / 10 % 10), Nat.digitChar (n % 10)]

/-- The overlay text: PIC: and the counter in decimal, then T: and HH:MM:SS (spec/43_capture_controller.md R200). -/
def overlayText (cnt : BitVec 16) (time : TimeOfDay) : List Char :=
  ['P', 'I', 'C', ':'] ++ Nat.toDigits 10 cnt.toNat ++ [' ', 'T', ':'] ++ twoDigits time.hh ++ [':']
    ++ twoDigits time.mm ++ [':'] ++ twoDigits time.ss

/-- The inked points of one character whose cell has the given index (R200). A character without a glyph inks nothing. -/
def glyphPoints (r : Renderer) (index : Nat) (c : Char) : List (Int × Int) :=
  ((r.glyphs.lookup c).getD []).map fun p => (r.anchorX + index * r.cellW + p.1, r.anchorY + p.2)

/-- The inked points of the whole text, one glyph cell per character from the anchor on (R200). -/
def overlayPoints (r : Renderer) (cnt : BitVec 16) (time : TimeOfDay) : List (Int × Int) :=
  (overlayText cnt time).zipIdx.flatMap fun p => glyphPoints r p.2 p.1

/-- The slot of a point, if it is a visible pixel (spec/41_framebuffer_accessor.md R131). -/
def visibleSlot (p : Int × Int) : Option Nat :=
  if inBounds Config.geometry p.1 p.2 then some (slotIndex Config.geometry p.1.toNat p.2.toNat) else none

/-- The set M of R200, as slots: the visible pixels the overlay inks. -/
def overlaySlots (r : Renderer) (cnt : BitVec 16) (time : TimeOfDay) : List Nat :=
  (overlayPoints r cnt time).filterMap visibleSlot

/-- The set M of the last overlay requested: no request of the port writes the counter, so `cnt` is that request's
(spec/60_exceptions.md R241). -/
def State.overlaySlots (s : State) : List Nat := Machine.overlaySlots s.renderer s.cnt s.ovlTime

/-- One way for the renderer to draw an overlay: an FSETC in OVL_INK for every inked point whose coordinates a request
can carry, then the done step (R199, R200). A point beyond 16 bits lies outside the frame and is dropped. -/
def overlayMoves (r : Renderer) (cnt : BitVec 16) (time : TimeOfDay) : List Move :=
  ((overlayPoints r cnt time).filter fun p => -32768 ≤ p.1 ∧ p.1 < 32768 ∧ -32768 ≤ p.2 ∧ p.2 < 32768).map
      (fun p => .renderer (encode (.fsetc (BitVec.ofInt 16 p.1) (BitVec.ofInt 16 p.2) r.ink)))
    ++ [.rendererDone]

end Sys2Proof.Machine
end

