-- ==== Sys2Proof/Machine/Agents.lean ====
section
/-! DEFINITION. The moves of the agents around the block (spec/00_scope.md R6): the overlay renderer, the video input
DMA, the scan-out, and reset. -/

namespace Sys2Proof.Machine

/-- The renderer's window: an overlay is pending and not done (spec/43_capture_controller.md R199). -/
def inOverlayWindow (s : State) : Bool := s.ovl && !s.ovlDone

/-- The renderer has issued its FSETC for a slot of the overlay (DESIGN CHOICE, log entry 23). -/
def State.markInked (s : State) (slot : Nat) : State :=
  { s with inked := if slot ∈ s.inked then s.inked else slot :: s.inked }

/-- An FSETC of the renderer, whose word is `q`: outside the frame it is served and dropped; inside, it is admitted if it
writes OVL_INK to a pixel of the overlay (spec/43_capture_controller.md R200; DEDUCED, log entry 24). -/
def rendererDraw (q : Request) (x y : Operand) (p : Pixel) (s : State) : Host.Outcome State Fault Refusal :=
  match visibleSlot (sint16 x, sint16 y) with
  | none => serveRequest q s
  | some slot =>
    if p = s.renderer.ink ∧ slot ∈ s.overlaySlots then serveRequest q (s.markInked slot)
    else .refused .rendererOutsideOverlay

/-- A request of the renderer (spec/43_capture_controller.md R199, R200): inside its window, and writing only by FSETC
and only its overlay; any other is a move the model does not admit (spec/93_implementation_defined.md I9; DEDUCED, log
entry 18). -/
def rendererRequest (q : Request) (s : State) : Host.Outcome State Fault Refusal :=
  if inOverlayWindow s = false then .refused .rendererOutsideWindow
  else
    match decode q with
    | .ok (.fset _ _ _) => .refused .rendererWriteNotClipped
    | .ok (.fsetc x y p) => rendererDraw q x y p s
    | _ => serveRequest q s

/-- The renderer's done step (spec/10_state.md R37), after the last request of its overlay: every pixel of the overlay
has been drawn (spec/43_capture_controller.md R199, R200; DEDUCED, log entry 24). -/
def rendererDone (s : State) : Host.Outcome State Fault Refusal :=
  if inOverlayWindow s = false then .refused .rendererOutsideWindow
  else if ∀ slot ∈ s.overlaySlots, slot ∈ s.inked then .next { s with ovlDone := true }
  else .refused .rendererNotFinished

/-- A DMA write (spec/20_memory.md R56, R57): any value to any slot while the stream is enabled, none otherwise. -/
def dmaWrite (slot : Nat) (v : Pixel) (s : State) : Host.Outcome State Fault Refusal :=
  if s.vctl = Config.vctlEnable then .next (s.withFrame (memWrite s.fb slot v)) else .refused .dmaWhileFrozen

/-- Reset (spec/70_reset_and_hazards.md R260): every field of the block at its reset value, every slot unspecified
anew. What the agents do next is not the block's to reset (DESIGN CHOICE, log entry 16). -/
def resetBlock (s : State) : State :=
  { State.reset with fb := ⟨s.fb.epoch + 1, []⟩, moves := s.moves, draws := s.draws, renderer := s.renderer }

/-- One move of the total order (spec/20_memory.md R59). -/
def runMove (m : Move) (s : State) : Host.Outcome State Fault Refusal :=
  match m with
  | .poll btn time => pollStep btn time s
  | .request q => serveRequest q s
  | .renderer q => rendererRequest q s
  | .rendererDone => rendererDone s
  | .dma slot v => dmaWrite slot v s
  | .scanOut _ => .next s
  | .reset => .next (resetBlock s)

end Sys2Proof.Machine
end

