-- ==== Sys2Proof/Machine/Step.lean ====
section
/-! DEFINITION. One step: the next move of the total order (spec/20_memory.md R59). -/

namespace Sys2Proof.Machine

/-- The agents' next listed move is made. Where none is listed the controller, which always has a step
(spec/43_capture_controller.md R203), polls with a free button value and a free time (DESIGN CHOICE, log
entry 2). A response lives only for the step that gave it (spec/10_state.md R23). -/
def step (s : State) : Host.Outcome State Fault Refusal :=
  match s.moves with
  | m :: rest => runMove m { s with moves := rest, resp := none }
  | [] =>
    pollStep (Config.freeButtons s.draws) (Config.freeTime s.draws) { s with draws := s.draws + 1, resp := none }

/-- The state whose next step is a poll in EDIT_SELECT that samples the given buttons at midnight. -/
def State.withEditPoll (s : State) (btn : BitVec 32) : State :=
  { s with ctl := .editSelect, dbw := 0, moves := .poll btn ⟨0, 0, 0⟩ :: s.moves }

/-- `s` with the request of the given bits as what the next step serves. A transform's word is served on the
controller's path only (spec/30_encoding.md R92), so for one of those the next step is the poll in EDIT_SELECT whose
button selects that transform (spec/43_capture_controller.md R198; DESIGN CHOICE, log entry 12). -/
def State.withFetchWord (s : State) (nbits w : Nat) : State :=
  let q : Request := BitVec.ofNat 64 (w % 2 ^ nbits)
  match decode q with
  | .ok .xmir => s.withEditPoll 0x2
  | .ok .xgry => s.withEditPoll 0x4
  | .ok .xinv => s.withEditPoll 0x8
  | _ => { s with moves := .request q :: s.moves }

end Sys2Proof.Machine
end

