-- ==== Sys2Proof/Safety.lean ====
section
/-! DEFINITION. What counts as a safe state, in the terms the statements use: the fault a HALTED state is
(spec/43_capture_controller.md R202), the controller's invariant (R206), the fault record's (R28, R29), and a
pending overlay's (R200). -/

namespace Sys2Proof.Safety

open Sys2Proof.Machine

/-- The fault a state is, if it is one: HALTED is never a normal end of a run (spec/60_exceptions.md R236). -/
def stateFault (s : State) : Option Fault := if s.ctl = .halted then some .halted else none

/-! ## Readings of the history (spec/10_state.md R31) -/

/-- The values written to the video control port, oldest first. -/
def vctlWrites (hist : List Event) : List (BitVec 32) :=
  hist.filterMap fun e => match e with
    | .vctl v => some v
    | .ovlReq _ _ => none
    | .fault _ _ _ _ => none

/-- How many overlays were requested. -/
def overlayRequests (hist : List Event) : Nat :=
  hist.countP fun e => match e with
    | .ovlReq _ _ => true
    | .vctl _ => false
    | .fault _ _ _ _ => false

/-- How many times the stream was disabled. -/
def disables (hist : List Event) : Nat := (vctlWrites hist).count Config.vctlDisable

/-- The faults raised, oldest first: code, operation, A, B. -/
def faults (hist : List Event) : List (Code × Code × Operand × Operand) :=
  hist.filterMap fun e => match e with
    | .fault code op a b => some (code, op, a, b)
    | .vctl _ => none
    | .ovlReq _ _ => none

/-- The values are `v`, then the other of 0x0 and 0x4, and so on in turn. -/
def alternating : BitVec 32 → List (BitVec 32) → Bool
  | _, [] => true
  | v, w :: ws => w = v && alternating (if v = Config.vctlDisable then Config.vctlEnable else Config.vctlDisable) ws

/-! ## Invariants -/

/-- What holds of the controller in every reachable state (spec/43_capture_controller.md R206), with the two facts
that make it inductive: `doneInWindow` and `parity`. -/
structure ControllerInv (s : State) : Prop where
  /-- R206 (a). -/
  notHalted : s.ctl ≠ .halted
  /-- R206 (b). -/
  frozen : s.ctl ≠ .streaming → s.vctl = 0x0#32
  /-- R206 (c). -/
  streaming : s.ctl = .streaming → s.vctl = if vctlWrites s.hist = [] then Config.vctlReset else 0x4#32
  /-- R206 (d). -/
  overlay : s.ovl = true → s.ctl = .capturing ∧ s.dbw = 0
  /-- The renderer's done stands only while an overlay is pending; with `overlay` it gives R206 (i). -/
  doneInWindow : s.ovlDone = true → s.ovl = true
  /-- R206 (e): the legal waits. -/
  wait : s.dbw = 0x0 ∨ s.dbw = 0x1 ∨ s.dbw = 0x2 ∨ s.dbw = 0x4 ∨ s.dbw = 0x8
  /-- R206 (e): the capture button is waited for only in CAPTURING and STREAMING. -/
  waitCapture : s.dbw = 0x1 → s.ctl = .capturing ∨ s.ctl = .streaming
  /-- R206 (e): a transform button is waited for only in EDIT_SELECT. -/
  waitTransform : s.dbw = 0x2 ∨ s.dbw = 0x4 ∨ s.dbw = 0x8 → s.ctl = .editSelect
  /-- R206 (f). -/
  counter : s.cnt.toNat ≤ 9999
  /-- R206 (g). -/
  alternate : alternating 0x0#32 (vctlWrites s.hist) = true
  /-- The stream has been re-enabled as often as disabled exactly in STREAMING. -/
  parity : s.ctl = .streaming ↔ (vctlWrites s.hist).length % 2 = 0
  /-- R206 (h). -/
  requests : overlayRequests s.hist + (if s.ctl = .capturing ∧ s.ovl = false then 1 else 0) = disables s.hist

/-- The fault record is the first fault of the history since reset, or all zero (spec/10_state.md R28, R29), and every
fault has one of the three causes (spec/60_exceptions.md R230). -/
structure FaultInv (s : State) : Prop where
  /-- The record is the first fault raised. -/
  first : ∀ f, (faults s.hist).head? = some f → (s.fltCause, s.fltOp, s.fltX, s.fltY) = f
  /-- No fault raised, nothing recorded. -/
  none : faults s.hist = [] → s.fltCause = 0 ∧ s.fltOp = 0 ∧ s.fltX = 0 ∧ s.fltY = 0
  /-- Causes are 1, 2 or 3. -/
  causes : ∀ f ∈ faults s.hist, f.1 = 1 ∨ f.1 = 2 ∨ f.1 = 3

/-- What holds of the frame while an overlay is pending (spec/43_capture_controller.md R200), where `frame` is the
frame at the request and no host has written since (spec/70_reset_and_hazards.md R268). -/
structure OverlayInv (frame : Memory) (s : State) : Prop where
  /-- Every pixel drawn holds OVL_INK and every other slot what it held at the request. -/
  drawn : ∀ j, memRead s.fb j = if j ∈ s.inked then s.renderer.ink else memRead frame j
  /-- Only pixels of the overlay are drawn. -/
  inside : ∀ j ∈ s.inked, j ∈ s.overlaySlots
  /-- Once the overlay is done all of them are drawn. -/
  whole : s.ovlDone = true → ∀ j ∈ s.overlaySlots, j ∈ s.inked

end Sys2Proof.Safety
end

