-- ==== Sys2Proof/Certificates/Slice0/Obligations.lean ====
section
/-! DEFINITION. The statements for the provers. A statement about a whole step starts from a state whose next move is
written out; `after s rest` is that state with the move taken. Values the spec leaves open (VCTL_RESET, the bytes a
reset leaves, free draws, the renderer's parameters) are constants without a body: every statement holds whatever
they are. -/

namespace Sys2Proof.Statements

open Sys2Proof Sys2Proof.Machine

/-- `s` once its next move has been taken and before that move acts. -/
def after (s : State) (rest : List Move) : State := { s with moves := rest, resp := none }

/-- What raising a fault leaves (spec/60_exceptions.md R233): the event, the record if none was held, the response. -/
def faulted (s : State) (code op : Code) (a b : Operand) : State :=
  { s with
    hist := s.hist ++ [.fault code op a b]
    fltCause := if s.fltCause = 0 then code else s.fltCause
    fltOp := if s.fltCause = 0 then op else s.fltOp
    fltX := if s.fltCause = 0 then a else s.fltX
    fltY := if s.fltCause = 0 then b else s.fltY
    resp := some ⟨code, 0⟩ }

/-- `s` with a response and nothing else changed. -/
def answered (s : State) (rdata : BitVec 32) : State := { s with resp := some ⟨0, rdata⟩ }

/-- The service port, outside HALTED, gives a word with the operation code `op` the instruction `i` if its
must-be-zero bits are zero (`legal`, with Z0 and Z1), and otherwise raises ILLEGAL_REQUEST with the raw fields. -/
def PortServes (op : Code) (legal : Request → Prop) (i : Request → Instr) : Prop :=
  ∀ (q : Request) (s : State), q.extractLsb' 0 4 = op → s.ctl ≠ .halted →
    (q.extractLsb' 4 4 = 0 ∧ q.extractLsb' 56 8 = 0 ∧ legal q → serveRequest q s = exec (i q) s) ∧
    (¬ (q.extractLsb' 4 4 = 0 ∧ q.extractLsb' 56 8 = 0 ∧ legal q) →
      serveRequest q s = .next (faulted s 2 op (q.extractLsb' 8 16) (q.extractLsb' 24 16)))

/-- (x, y), read as two's complement, is a visible pixel (spec/41_framebuffer_accessor.md R131). -/
def onFrame (x y : Operand) : Prop := 0 ≤ x.toInt ∧ x.toInt < 320 ∧ 0 ≤ y.toInt ∧ y.toInt < 240

/-- Slot j is a visible pixel (spec/00_scope.md glossary). -/
def visible (j : Nat) : Prop := j % 512 < 320 ∧ j / 512 < 240

/-- An operation that responds OK with rdata 0 and changes the framebuffer only: each slot `j` then reads `f j`, and
each byte outside the slots `stored` reads as before. -/
def StoresFrame (i : Instr) (s : State) (stored : Nat → Prop) (f : Nat → Pixel) : Prop :=
  ∃ t, exec i s = .next t ∧ t = { s with fb := t.fb, resp := some ⟨0, 0⟩ } ∧ (∀ j, memRead t.fb j = f j) ∧
    ∀ k, ¬ stored (k / 2) → t.fb.byte k = s.fb.byte k

/-- The grayscale of a pixel in plain arithmetic (spec/42_transform_engine.md R163). -/
def gray (p : Pixel) : Pixel :=
  let r := p.toNat / 2048
  let g := p.toNat / 32 % 64
  let b := p.toNat % 32
  let k := ((r * 8 + r / 4) + (g * 4 + g / 16) + (b * 8 + b / 4)) / 3
  BitVec.ofNat 16 (k / 8 * 2048 + k / 4 * 32 + k / 8)

/-- A request that writes no slot: neither FSET nor FSETC. -/
def writesNothing (q : Request) : Prop := ∀ x y p, decode q ≠ .ok (.fset x y p) ∧ decode q ≠ .ok (.fsetc x y p)

/-- The decimal digits of a 16-bit number, without padding. -/
def decimal (n : Nat) : List Char :=
  let d (k : Nat) : Char := Char.ofNat (48 + n / k % 10)
  if n < 10 then [d 1]
  else if n < 100 then [d 10, d 1]
  else if n < 1000 then [d 100, d 10, d 1]
  else if n < 10000 then [d 1000, d 100, d 10, d 1]
  else [d 10000, d 1000, d 100, d 10, d 1]

/-- A number below 100 with two digits. -/
def twoPlaces (n : Nat) : List Char := [Char.ofNat (48 + n / 10), Char.ofNat (48 + n % 10)]

/-- A state some run reaches: from reset, under some list of moves of the agents. -/
def Reachable (s : State) : Prop :=
  ∃ (moves : List Move) (k : Nat), core.run k { State.reset with moves := moves } = .next s

end Sys2Proof.Statements

open Sys2Proof Sys2Proof.Machine Sys2Proof.Safety Sys2Proof.Statements

/-! ## Encodings -/

/-- Every well-formed instruction is read back from its word (R91, R100). -/
def Obligations.DecodeOfEncode : Prop := ∀ i : Instr, i.wellFormed = true → decode (encode i) = .ok i

/-- Every word the decoder accepts is the word of the well-formed instruction it gives: each bit of a legal word is
accounted for (R80, R81, R91). -/
def Obligations.EncodeOfDecode : Prop :=
  ∀ (q : Request) (i : Instr), decode q = .ok i → i.wellFormed = true ∧ encode i = q

/-- A word is legal exactly if it matches a row of the opcode table; a word that is not raises ILLEGAL_REQUEST at the
service port and has no other effect (R89). -/
def Obligations.LegalExactlyByTheTable : Prop :=
  (∀ q : Request, (∃ i, decode q = .ok i) ↔ ∃ row ∈ opcodeTable, q &&& row.2 = row.1) ∧
  ∀ (q : Request) (s : State), (¬ ∃ row ∈ opcodeTable, q &&& row.2 = row.1) → s.ctl ≠ .halted →
    serveRequest q s
      = .next (faulted s 2 (q.extractLsb' 0 4) (q.extractLsb' 8 16) (q.extractLsb' 24 16))

/-- Words written out in 95_test_vectors.md decode to the instructions they stand for there. -/
def Obligations.VectorWordsDecode : Prop :=
  decode 0x0000000000ABCD01#64 = .ok (.cdec 0xABCD) ∧
  decode 0x000000000D1E1502#64 = .ok (.cenc 21 30 13) ∧
  decode 0x0000000000001503#64 = .ok (.cx5 21) ∧
  decode 0x00ABCD00EF013F06#64 = .ok (.fset 319 239 0xABCD) ∧
  decode 0x000000000000000B#64 = .ok .xmir ∧
  decode 0x000000000000010E#64 = .ok (.stat true)

/-! ## A step runs the decoded instruction -/

/-- A request at the service port whose word decodes to `i` runs `i`, unless it is a transform (R92) or the block is
halted and it is not STAT (R236); a transform runs in the poll of EDIT_SELECT that its button selects, which then
takes the response and starts the debounce wait (R198). -/
def Obligations.StepRunsTheDecodedInstruction : Prop :=
  (∀ (s : State) (q : Request) (i : Instr) (rest : List Move),
    s.moves = .request q :: rest → decode q = .ok i → i ≠ .xmir → i ≠ .xgry → i ≠ .xinv →
    (s.ctl ≠ .halted ∨ ∃ sel, i = .stat sel) → step s = exec i (after s rest)) ∧
  ∀ (s : State) (btn : BitVec 32) (time : TimeOfDay) (rest : List Move),
    s.moves = .poll btn time :: rest → s.ctl = .editSelect → s.dbw = 0 → btn.getLsbD 0 = false →
    (btn.getLsbD 1 = true → ∃ t, exec .xmir (after s rest) = .next t ∧
      step s = .next { t with resp := none, dbw := 0x2 }) ∧
    (btn.getLsbD 1 = false → btn.getLsbD 2 = true → ∃ t, exec .xgry (after s rest) = .next t ∧
      step s = .next { t with resp := none, dbw := 0x4 }) ∧
    (btn.getLsbD 1 = false → btn.getLsbD 2 = false → btn.getLsbD 3 = true →
      ∃ t, exec .xinv (after s rest) = .next t ∧ step s = .next { t with resp := none, dbw := 0x8 })

/-- A transform's word at the service port raises ILLEGAL_REQUEST and has no other effect (R92). -/
def Obligations.TransformsOnlyOnTheControllersPath : Prop :=
  ∀ s : State, s.ctl ≠ .halted →
    serveRequest 0x000000000000000B#64 s = .next (faulted s 2 0xB 0 0) ∧
    serveRequest 0x000000000000000C#64 s = .next (faulted s 2 0xC 0 0) ∧
    serveRequest 0x000000000000000D#64 s = .next (faulted s 2 0xD 0 0) ∧
    ∀ i ∈ [Instr.xmir, .xgry, .xinv], issue .controller (encode i) s = exec i s

/-! ## The pixel codec -/

/-- CDEC (R116): red, green and blue of the pixel in their places of rdata; nothing else changes. -/
def Obligations.CdecUnpacksThePixel : Prop :=
  PortServes 0x1 (fun q => q.extractLsb' 24 16 = 0 ∧ q.extractLsb' 40 16 = 0) (fun q => .cdec (q.extractLsb' 8 16)) ∧
  ∀ (p : Pixel) (s : State),
    exec (.cdec p) s = .next (answered s
      (0#11 ++ p.extractLsb' 0 5 ++ 0#2 ++ p.extractLsb' 5 6 ++ 0#3 ++ p.extractLsb' 11 5))

/-- CENC (R117): the low 5, 6 and 5 bits of the three channels packed; upper bits are dropped without a fault (R113).
-/
def Obligations.CencPacksTheLowBits : Prop :=
  PortServes 0x2 (fun q => q.extractLsb' 32 8 = 0 ∧ q.extractLsb' 40 16 = 0)
    (fun q => .cenc (q.extractLsb' 8 8) (q.extractLsb' 16 8) (q.extractLsb' 24 8)) ∧
  ∀ (r g b : BitVec 8) (s : State),
    exec (.cenc r g b) s
      = .next (answered s (0#16 ++ r.extractLsb' 0 5 ++ g.extractLsb' 0 6 ++ b.extractLsb' 0 5))

/-- CX5 (R118): the five bits, then their top three again; the port gives a word with a larger v ILLEGAL_REQUEST. No
word decodes to a term with a larger v: that its meaning raises ILLEGAL_REQUEST with v and 0 recorded is the model's
choice (DEDUCED, log entry 14). -/
def Obligations.Cx5ReplicatesTheTopBits : Prop :=
  PortServes 0x3 (fun q => q.extractLsb' 13 11 = 0 ∧ q.extractLsb' 24 16 = 0 ∧ q.extractLsb' 40 16 = 0)
    (fun q => .cx5 (q.extractLsb' 8 16)) ∧
  ∀ (v : Operand) (s : State),
    (v.toNat < 32 → exec (.cx5 v) s = .next (answered s (0#24 ++ v.extractLsb' 0 5 ++ v.extractLsb' 2 3))) ∧
    (32 ≤ v.toNat → exec (.cx5 v) s = .next (faulted s 2 0x3 v 0))

/-- CX6 (R119): the six bits, then their top two again; the port gives a word with a larger v ILLEGAL_REQUEST. No word
decodes to a term with a larger v: that its meaning raises ILLEGAL_REQUEST with v and 0 recorded is the model's choice
(DEDUCED, log entry 14). -/
def Obligations.Cx6ReplicatesTheTopBits : Prop :=
  PortServes 0x4 (fun q => q.extractLsb' 14 10 = 0 ∧ q.extractLsb' 24 16 = 0 ∧ q.extractLsb' 40 16 = 0)
    (fun q => .cx6 (q.extractLsb' 8 16)) ∧
  ∀ (v : Operand) (s : State),
    (v.toNat < 64 → exec (.cx6 v) s = .next (answered s (0#24 ++ v.extractLsb' 0 6 ++ v.extractLsb' 4 2))) ∧
    (64 ≤ v.toNat → exec (.cx6 v) s = .next (faulted s 2 0x4 v 0))

/-- The codec laws (R115, which the spec marks as derived): (a) pack after unpack, (b) unpack after pack, (c) the top
bits of an expansion, (d) its ends, (e) it is strictly increasing. -/
def Obligations.CodecLaws : Prop :=
  (∀ p : Pixel, encodePixel (decodePixel p).r (decodePixel p).g (decodePixel p).b = p) ∧
  (∀ r g b : Nat, decodePixel (encodePixel r g b) = ⟨r &&& 31, g &&& 63, b &&& 31⟩) ∧
  (∀ v, v < 32 → to8 v 5 >>> 3 = v) ∧ (∀ v, v < 64 → to8 v 6 >>> 2 = v) ∧
  (to8 0 5 = 0 ∧ to8 31 5 = 255 ∧ to8 0 6 = 0 ∧ to8 63 6 = 255) ∧
  (∀ v w, v < w → w < 32 → to8 v 5 < to8 w 5) ∧ (∀ v w, v < w → w < 64 → to8 v 6 < to8 w 6)

/-- The codec is stateless (R120): the response to a codec word depends on the word alone, and in HALTED there is
none. -/
def Obligations.CodecIsStateless : Prop :=
  ∀ q : Request, q.extractLsb' 0 4 ∈ [0x1#4, 0x2#4, 0x3#4, 0x4#4] →
    (∃ r : Response, ∀ s : State, s.ctl ≠ .halted → ∃ t, serveRequest q s = .next t ∧ t.resp = some r) ∧
    ∀ s : State, s.ctl = .halted → s.resp = none → ∃ t, serveRequest q s = .next t ∧ t.resp = none

/-! ## The framebuffer accessor -/

/-- FGET (R135): a visible pixel's slot, read without any other change; any other coordinate raises OUT_OF_BOUNDS with
the two operands recorded. -/
def Obligations.FgetReadsAVisiblePixel : Prop :=
  PortServes 0x5 (fun q => q.extractLsb' 40 16 = 0) (fun q => .fget (q.extractLsb' 8 16) (q.extractLsb' 24 16)) ∧
  ∀ (x y : Operand) (s : State),
    (onFrame x y → exec (.fget x y) s
      = .next (answered s (0#16 ++ memRead s.fb (y.toNat * 512 + x.toNat)))) ∧
    (¬ onFrame x y → exec (.fget x y) s = .next (faulted s 1 0x5 x y))

/-- FSET (R136): a visible pixel's slot is written, every other slot and byte keeps its value; any other coordinate
raises OUT_OF_BOUNDS and writes no slot. -/
def Obligations.FsetWritesAVisiblePixel : Prop :=
  PortServes 0x6 (fun _ => True)
    (fun q => .fset (q.extractLsb' 8 16) (q.extractLsb' 24 16) (q.extractLsb' 40 16)) ∧
  ∀ (x y : Operand) (p : Pixel) (s : State),
    (onFrame x y → StoresFrame (.fset x y p) s (fun j => j = y.toNat * 512 + x.toNat)
      (fun j => if j = y.toNat * 512 + x.toNat then p else memRead s.fb j)) ∧
    (¬ onFrame x y → exec (.fset x y p) s = .next (faulted s 1 0x6 x y))

/-- FSETC (R137): as FSET on a visible pixel; any other coordinate is dropped with response OK. -/
def Obligations.FsetcClips : Prop :=
  PortServes 0x7 (fun _ => True)
    (fun q => .fsetc (q.extractLsb' 8 16) (q.extractLsb' 24 16) (q.extractLsb' 40 16)) ∧
  ∀ (x y : Operand) (p : Pixel) (s : State),
    (onFrame x y → StoresFrame (.fsetc x y p) s (fun j => j = y.toNat * 512 + x.toNat)
      (fun j => if j = y.toNat * 512 + x.toNat then p else memRead s.fb j)) ∧
    (¬ onFrame x y → exec (.fsetc x y p) s = .next (answered s 0))

/-- FWID, FHGT and FSTR (R138 to R140): 320, 240 and 512, and nothing else changes. -/
def Obligations.GeometryReads : Prop :=
  PortServes 0x8 (fun q => q.extractLsb' 8 16 = 0 ∧ q.extractLsb' 24 16 = 0 ∧ q.extractLsb' 40 16 = 0)
    (fun _ => .fwid) ∧
  PortServes 0x9 (fun q => q.extractLsb' 8 16 = 0 ∧ q.extractLsb' 24 16 = 0 ∧ q.extractLsb' 40 16 = 0)
    (fun _ => .fhgt) ∧
  PortServes 0xA (fun q => q.extractLsb' 8 16 = 0 ∧ q.extractLsb' 24 16 = 0 ∧ q.extractLsb' 40 16 = 0)
    (fun _ => .fstr) ∧
  ∀ s : State, exec .fwid s = .next (answered s 320) ∧ exec .fhgt s = .next (answered s 240) ∧
    exec .fstr s = .next (answered s 512)

/-- The Get and Set laws (R142, which the spec marks as derived): (a) distinct visible pixels have distinct slots, (b)
FGET after FSET gives the pixel written, (c) FSET leaves every other slot alone, (d) both respond OUT_OF_BOUNDS off
the frame and write no slot. -/
def Obligations.GetSetLaws : Prop :=
  (∀ x y x' y' : Nat, x < 320 → x' < 320 → y * 512 + x = y' * 512 + x' → x = x' ∧ y = y') ∧
  (∀ (x y : Operand) (p : Pixel) (s : State), onFrame x y →
    ∃ t, exec (.fset x y p) s = .next t ∧ exec (.fget x y) t = .next (answered t (0#16 ++ p)) ∧
      ∀ j, j ≠ y.toNat * 512 + x.toNat → memRead t.fb j = memRead s.fb j) ∧
  ∀ (x y : Operand) (p : Pixel) (s : State), ¬ onFrame x y →
    (∃ t, exec (.fget x y) s = .next t ∧ t.resp = some ⟨1, 0⟩ ∧ t.fb = s.fb) ∧
    ∃ t, exec (.fset x y p) s = .next t ∧ t.resp = some ⟨1, 0⟩ ∧ t.fb = s.fb

/-- The accessor never touches padding (R141, which the spec marks as derived): Get gives the same on two regions that
agree off the padding, and neither Set nor SetClip changes a padding slot. -/
def Obligations.AccessorNeverTouchesPadding : Prop :=
  (∀ (m n : Memory) (x y : Int), (∀ j, j % 512 < 320 → memRead m j = memRead n j) →
    getPixel Config.geometry m x y = getPixel Config.geometry n x y) ∧
  (∀ (m n : Memory) (x y : Int) (p : Pixel), setPixel Config.geometry m x y p = .ok n →
    ∀ j, 320 ≤ j % 512 → memRead n j = memRead m j) ∧
  ∀ (m : Memory) (x y : Int) (p : Pixel) (j : Nat), 320 ≤ j % 512 →
    memRead (setClip Config.geometry m x y p) j = memRead m j

/-! ## The image transform engine -/

/-- XMIR in EDIT_SELECT (R162, and R166, which the spec marks as derived): every visible pixel takes the value at the
mirrored column, every other slot and byte keeps its value, and twice is the identity on every slot. -/
def Obligations.XmirMirrorsTheFrame : Prop :=
  (∀ s : State, s.ctl = .editSelect → StoresFrame .xmir s visible
    (fun j => if j % 512 < 320 ∧ j / 512 < 240 then memRead s.fb (j / 512 * 512 + (319 - j % 512))
      else memRead s.fb j)) ∧
  ∀ s : State, s.ctl = .editSelect → ∃ t u, exec .xmir s = .next t ∧ exec .xmir t = .next u ∧
    ∀ j, memRead u.fb j = memRead s.fb j

/-- XMIR's walk at any geometry (R162): the closed form of the mirror, and what is no visible pixel keeps its value;
the middle column of an odd width maps to itself. -/
def Obligations.MirrorAtAnyGeometry : Prop :=
  ∀ (g : Geometry) (m : Memory), g.width ≤ g.stride →
    (∀ x y, x < g.width → y < g.height →
      memRead (mirrorFrame g m) (y * g.stride + x) = memRead m (y * g.stride + (g.width - 1 - x))) ∧
    ∀ j, (∀ x y, x < g.width → y < g.height → y * g.stride + x ≠ j) →
      memRead (mirrorFrame g m) j = memRead m j

/-- XGRY in EDIT_SELECT (R163): every visible pixel takes its gray, every other slot and byte keeps its value. -/
def Obligations.XgryGraysTheFrame : Prop :=
  ∀ s : State, s.ctl = .editSelect → StoresFrame .xgry s visible
    (fun j => if j % 512 < 320 ∧ j / 512 < 240 then gray (memRead s.fb j) else memRead s.fb j)

/-- Grayscale's stability (R168 (b) to (e), which the spec marks as derived; the count of (b) is not stated): the
smallest pixel at which it is not idempotent; three passes are two; exactly 36 fixed points; red equals blue after a
pass. -/
def Obligations.GrayscaleStability : Prop :=
  (grayPixel 0x0002 = 0x0020 ∧ grayPixel (grayPixel 0x0002) = 0x0000 ∧
    ∀ p : Pixel, p.toNat < 2 → grayPixel (grayPixel p) = grayPixel p) ∧
  (∀ p : Pixel, grayPixel (grayPixel (grayPixel p)) = grayPixel (grayPixel p)) ∧
  (∀ p : Pixel, grayPixel p = p ↔ p ∈
    [0x0000#16, 0x0841#16, 0x1082#16, 0x18C3#16, 0x2104#16, 0x2945#16, 0x3186#16, 0x39C7#16, 0x4208#16, 0x4A49#16,
      0x528A#16, 0x5ACB#16] ++
    [0x630C#16, 0x6B4D#16, 0x738E#16, 0x7BCF#16, 0x8410#16, 0x8430#16, 0x8C51#16, 0x8C71#16, 0x9492#16, 0x94B2#16,
      0x9CD3#16, 0x9CF3#16] ++
    [0xA534#16, 0xAD75#16, 0xB5B6#16, 0xBDF7#16, 0xC638#16, 0xCE79#16, 0xD6BA#16, 0xDEFB#16, 0xE73C#16, 0xEF7D#16,
      0xF7BE#16, 0xFFFF#16]) ∧
  ∀ p : Pixel, (decodePixel (grayPixel p)).r = (decodePixel (grayPixel p)).b

/-- XGRY three times leaves every slot as twice does (R168 (c), which the spec marks as derived). -/
def Obligations.XgryStableAfterTwoPasses : Prop :=
  ∀ s : State, s.ctl = .editSelect →
    ∃ t u v, exec .xgry s = .next t ∧ exec .xgry t = .next u ∧ exec .xgry u = .next v ∧
      ∀ j, memRead v.fb j = memRead u.fb j

/-- XINV in EDIT_SELECT (R164, and R167, which the spec marks as derived): every visible pixel is complemented, every
other slot and byte keeps its value, and twice is the identity on every slot. -/
def Obligations.XinvComplementsTheFrame : Prop :=
  (∀ p : Pixel, invertPixel p = p ^^^ 0xFFFF#16) ∧
  (∀ s : State, s.ctl = .editSelect → StoresFrame .xinv s visible
    (fun j => if j % 512 < 320 ∧ j / 512 < 240 then memRead s.fb j ^^^ 0xFFFF#16 else memRead s.fb j)) ∧
  ∀ s : State, s.ctl = .editSelect → ∃ t u, exec .xinv s = .next t ∧ exec .xinv t = .next u ∧
    ∀ j, memRead u.fb j = memRead s.fb j

/-- A transform outside EDIT_SELECT raises STATE_VIOLATION before it reads or writes a slot (R161). -/
def Obligations.TransformsNeedEditSelect : Prop :=
  ∀ s : State, s.ctl ≠ .editSelect →
    exec .xmir s = .next (faulted s 3 0xB 0 0) ∧ exec .xgry s = .next (faulted s 3 0xC 0 0) ∧
    exec .xinv s = .next (faulted s 3 0xD 0 0)

/-- Transforms stay in bounds and off the padding (R169, which the spec marks as derived; log entry 13): the loops
with the accessor's bounds check in every access never fault and give the loops the operations run, at every legal
geometry, and no slot outside the visible pixels changes. -/
def Obligations.TransformsStayInBounds : Prop :=
  ∀ (g : Geometry) (m : Memory), g.legal →
    mirrorFrameChecked g m = .ok (mirrorFrame g m) ∧
    grayFrameChecked g m = .ok (grayFrame g m) ∧
    invertFrameChecked g m = .ok (invertFrame g m) ∧
    ∀ j, (∀ x y, x < g.width → y < g.height → y * g.stride + x ≠ j) →
      memRead (mirrorFrame g m) j = memRead m j ∧ memRead (grayFrame g m) j = memRead m j ∧
      memRead (invertFrame g m) j = memRead m j

/-! ## The frame capture controller -/

/-- The debounce wait (R194): while a bit is waited for, a poll tests that bit alone, clears the wait once it reads 0,
and does nothing else. -/
def Obligations.DebounceWaitsForTheBit : Prop :=
  ∀ (s : State) (btn : BitVec 32) (time : TimeOfDay) (rest : List Move) (i : Nat),
    s.moves = .poll btn time :: rest → s.ctl ≠ .halted → i < 4 → s.dbw = BitVec.twoPow 4 i →
    step s = .next (if btn.getLsbD i then after s rest else { after s rest with dbw := 0 })

/-- STREAMING (R195): the capture bit disables the stream and starts CAPTURING; without it nothing changes. -/
def Obligations.StreamingWaitsForCapture : Prop :=
  ∀ (s : State) (btn : BitVec 32) (time : TimeOfDay) (rest : List Move),
    s.moves = .poll btn time :: rest → s.ctl = .streaming → s.dbw = 0 →
    step s = .next (if btn.getLsbD 0
      then { after s rest with vctl := 0x0, hist := s.hist ++ [.vctl 0x0], ctl := .capturing, dbw := 0x1 }
      else after s rest)

/-- CAPTURING after the release (R196, R197): first the counter is wrap-incremented and the overlay requested with the
new value, which changes no other field of the spec's record; then, once the overlay is done, the state moves on; else
nothing changes. What the model notes of the request for itself (DESIGN CHOICE, log entry 23) is left open here. -/
def Obligations.CapturingCountsAndOverlays : Prop :=
  ∀ (s : State) (btn : BitVec 32) (time : TimeOfDay) (rest : List Move),
    s.moves = .poll btn time :: rest → s.ctl = .capturing → s.dbw = 0 →
    (s.ovl = false → ∃ c : BitVec 16, c = (if s.cnt.toNat ≥ 9999 then 0 else s.cnt + 1) ∧
      ∃ t, step s = .next t ∧ t = { after s rest with
        cnt := c, ovl := true, ovlDone := false, hist := s.hist ++ [.ovlReq c time],
        ovlTime := t.ovlTime, inked := t.inked }) ∧
    (s.ovl = true → s.ovlDone = true →
      step s = .next { after s rest with ovl := false, ovlDone := false, ctl := .frozenOverlaid }) ∧
    (s.ovl = true → s.ovlDone = false → step s = .next (after s rest))

/-- FROZEN_OVERLAID (R201) lasts one step; HALTED (R202) never ends by a poll. That a step in HALTED answers next, and
that `stateFault` is what names the state a fault, is the model's choice (DEDUCED, log entry 11). -/
def Obligations.OverlaidOpensAndHaltedStays : Prop :=
  ∀ (s : State) (btn : BitVec 32) (time : TimeOfDay) (rest : List Move), s.moves = .poll btn time :: rest →
    (s.ctl = .frozenOverlaid → s.dbw = 0 → step s = .next { after s rest with ctl := .editSelect }) ∧
    (s.ctl = .halted → step s = .next (after s rest) ∧ stateFault s = some .halted)

/-- EDIT_SELECT (R198): the lowest set bit decides. Capture re-enables the stream; a transform bit transforms the
frame, stays, and starts the wait for that bit; no bit changes nothing. -/
def Obligations.EditSelectActsOnTheLowestBit : Prop :=
  ∀ (s : State) (btn : BitVec 32) (time : TimeOfDay) (rest : List Move),
    s.moves = .poll btn time :: rest → s.ctl = .editSelect → s.dbw = 0 →
    step s = .next (
      if btn.getLsbD 0 then
        { after s rest with vctl := 0x4, hist := s.hist ++ [.vctl 0x4], ctl := .streaming, dbw := 0x1 }
      else if btn.getLsbD 1 then { after s rest with fb := mirrorFrame Config.geometry s.fb, dbw := 0x2 }
      else if btn.getLsbD 2 then { after s rest with fb := grayFrame Config.geometry s.fb, dbw := 0x4 }
      else if btn.getLsbD 3 then { after s rest with fb := invertFrame Config.geometry s.fb, dbw := 0x8 }
      else after s rest)

/-- Button bits 31:4 are ignored (R33, R193): polls that sample the same low four bits do the same. -/
def Obligations.UpperButtonBitsIgnored : Prop :=
  ∀ (s : State) (b c : BitVec 32) (time : TimeOfDay),
    b.extractLsb' 0 4 = c.extractLsb' 0 4 → pollStep b time s = pollStep c time s

/-- The time is read only by the step that requests an overlay (R191 (2)). -/
def Obligations.TimeReadOnlyAtTheRequest : Prop :=
  ∀ (s : State) (btn : BitVec 32) (t u : TimeOfDay),
    ¬ (s.ctl = .capturing ∧ s.dbw = 0 ∧ s.ovl = false) → pollStep btn t s = pollStep btn u s

/-- The video control port is written only at the two boundaries, and never by reset or after a transform (R204). -/
def Obligations.StreamWritesOnlyAtTheBoundaries : Prop :=
  ∀ s t : State, step s = .next t →
    (vctlWrites t.hist = vctlWrites s.hist ∧ t.vctl = s.vctl) ∨
    (s.ctl = .streaming ∧ t.ctl = .capturing ∧ vctlWrites t.hist = vctlWrites s.hist ++ [0x0] ∧ t.vctl = 0x0) ∨
    (s.ctl = .editSelect ∧ t.ctl = .streaming ∧ vctlWrites t.hist = vctlWrites s.hist ++ [0x4] ∧ t.vctl = 0x4 ∧
      t.fb = s.fb) ∨
    (∃ rest, s.moves = .reset :: rest ∧ t.hist = [] ∧ t.vctl = Config.vctlReset)

/-- Every step keeps the controller's invariant (R206, which the spec marks as derived). -/
def Obligations.StepKeepsControllerInvariant : Prop :=
  ∀ s t : State, ControllerInv s → step s = .next t → ControllerInv t

/-- Reset meets the controller's invariant, whatever moves are to come (R206, R36). -/
def Obligations.ResetMeetsControllerInvariant : Prop :=
  ∀ moves : List Move, ControllerInv { State.reset with moves := moves }

/-- In every state a run from reset reaches, under any moves of the agents, R206 (a) to (i) hold; the spec marks R206
as derived. -/
def Obligations.ReachableStatesAreLegal : Prop :=
  ∀ s : State, Reachable s → ControllerInv s ∧ (s.ctl = .streaming → s.ovl = false ∧ s.ovlDone = false)

/-- The capture, mirror, re-capture scenario (R207, which the spec marks as derived), for any renderer, any time and any
frame the DMA left: at the end every visible pixel holds the mirrored one of the overlaid frame. The renderer draws in
the way of `overlayMoves`, which is the model's choice (DESIGN CHOICE, log entry 17). -/
def Obligations.CaptureMirrorRecapture : Prop :=
  ∀ (time : TimeOfDay) (s : State), s.ctl = .streaming → s.dbw = 0 → s.ovl = false → s.cnt = 0 → s.hist = [] →
    s.moves = [.poll 0x1 time, .poll 0x1 time, .poll 0x0 time, .poll 0x0 time] ++ overlayMoves s.renderer 1 time ++
      [.poll 0x0 time, .poll 0x0 time, .poll 0x2 time, .poll 0x0 time, .poll 0x1 time, .poll 0x0 time] →
    ∃ t, core.run s.moves.length s = .next t ∧ t.ctl = .streaming ∧ t.dbw = 0 ∧ t.ovl = false ∧ t.cnt = 1 ∧
      t.vctl = 0x4 ∧ t.hist = [.vctl 0x0, .ovlReq 1 time, .vctl 0x4] ∧ t.fltCause = s.fltCause ∧
      ∀ x y, x < 320 → y < 240 → memRead t.fb (y * 512 + x) =
        if y * 512 + (319 - x) ∈ overlaySlots s.renderer 1 time then s.renderer.ink
        else memRead s.fb (y * 512 + (319 - x))

/-- A capture button that never reads 0 holds the controller in CAPTURING for ever (R203 (a)): any number of polls
that sample it set leaves the state as it was. -/
def Obligations.StuckButtonHangs : Prop :=
  ∀ (samples : List (BitVec 32 × TimeOfDay)) (s : State), s.ctl = .capturing → s.dbw = 0x1 → s.resp = none →
    (∀ b ∈ samples, b.1.getLsbD 0 = true) → s.moves = samples.map (fun b => .poll b.1 b.2) →
    core.run samples.length s = .next { s with moves := [] }

/-! ## Faults -/

/-- A request that responds a status other than OK changes nothing but the history, the first-fault record and the
response, and records its own OP, A and B (R231, R233). -/
def Obligations.FaultsArePrecise : Prop :=
  ∀ (q : Request) (s t : State) (r : Response), s.resp = none → serveRequest q s = .next t → t.resp = some r →
    r.status ≠ 0 →
    (r.status = 1 ∨ r.status = 2 ∨ r.status = 3) ∧
    t = faulted s r.status (q.extractLsb' 0 4) (q.extractLsb' 8 16) (q.extractLsb' 24 16)

/-- The record is sticky (R235): once a cause is recorded no step but a reset changes it, whatever faults follow;
reset clears it; and a second fault responds with its own code and leaves the record. -/
def Obligations.FaultRecordIsSticky : Prop :=
  (∀ (s t : State), s.fltCause ≠ 0 → step s = .next t → (∀ rest, s.moves ≠ .reset :: rest) →
    t.fltCause = s.fltCause ∧ t.fltOp = s.fltOp ∧ t.fltX = s.fltX ∧ t.fltY = s.fltY) ∧
  (∀ (s : State) (rest : List Move), s.moves = .reset :: rest →
    ∃ t, step s = .next t ∧ t.fltCause = 0 ∧ t.fltOp = 0 ∧ t.fltX = 0 ∧ t.fltY = 0) ∧
  ∀ (s : State) (code : FaultCode) (op : Code) (a b : Operand), s.fltCause ≠ 0 →
    s.raiseFault code op a b
      = { s with hist := s.hist ++ [.fault code.code op a b], resp := some ⟨code.code, 0⟩ }

/-- Every step keeps: the record is the first fault raised since reset, and every cause is 1, 2 or 3 (R28, R29, R230).
-/
def Obligations.StepKeepsFaultInvariant : Prop :=
  ∀ s t : State, FaultInv s → step s = .next t → FaultInv t

/-- Reset meets the fault record's invariant (R36). -/
def Obligations.ResetMeetsFaultInvariant : Prop := FaultInv State.reset

/-- R236: a transform of the controller's path that does not respond OK enters HALTED with its fault recorded, the
wait cleared and the video control port as it was; in HALTED polls change nothing, the service port accepts STAT
alone, and the state counts as a fault; in every other state the service port answers every request. That a request
which is not accepted changes nothing, and that `stateFault` names the fault while polls answer next, are the model's
choices (DEDUCED, log entries 10 and 11). -/
def Obligations.HaltedAcceptsStatusOnly : Prop :=
  (∀ (q : Request) (s : State), s.ctl = .halted →
    (∀ sel, decode q = .ok (.stat sel) → serveRequest q s = exec (.stat sel) s) ∧
    ((∀ sel, decode q ≠ .ok (.stat sel)) → serveRequest q s = .next s)) ∧
  (∀ (btn : BitVec 32) (time : TimeOfDay) (s : State), s.ctl = .halted →
    pollStep btn time s = .next s ∧ stateFault s = some .halted) ∧
  (∀ (q : Request) (s : State), s.ctl ≠ .halted → ∃ t r, serveRequest q s = .next t ∧ t.resp = some r) ∧
  ∀ (s : State) (wait : BitVec 4), s.ctl ≠ .editSelect →
    runTransform .xmir wait s = .next { faulted s 3 0xB 0 0 with ctl := .halted, dbw := 0, resp := none } ∧
    runTransform .xgry wait s = .next { faulted s 3 0xC 0 0 with ctl := .halted, dbw := 0, resp := none } ∧
    runTransform .xinv wait s = .next { faulted s 3 0xD 0 0 with ctl := .halted, dbw := 0, resp := none }

/-- The controller's path never faults (R237, which the spec marks as derived): no step enters HALTED, and a poll step
raises no fault. -/
def Obligations.ControllerNeverHalts : Prop :=
  (∀ s t : State, s.ctl ≠ .halted → step s = .next t → t.ctl ≠ .halted) ∧
  ∀ (s : State) (btn : BitVec 32) (time : TimeOfDay),
    ∃ t, pollStep btn time s = .next t ∧ faults t.hist = faults s.hist

/-- A request changes nothing of the controller and nothing of the environment (R24, R26, R27, R30, R241): no request
writes the counter. -/
def Obligations.RequestsLeaveTheControllerAlone : Prop :=
  ∀ (who : Requester) (q : Request) (s : State), ∃ t, issue who q s = .next t ∧
    t.ctl = s.ctl ∧ t.dbw = s.dbw ∧ t.ovl = s.ovl ∧ t.ovlDone = s.ovlDone ∧ t.cnt = s.cnt ∧ t.vctl = s.vctl ∧
    t.moves = s.moves ∧ t.draws = s.draws ∧ t.renderer = s.renderer ∧ t.ovlTime = s.ovlTime ∧ t.inked = s.inked ∧
    vctlWrites t.hist = vctlWrites s.hist ∧
    overlayRequests t.hist = overlayRequests s.hist

/-- STAT (R205): the two views of the state, in every controller state, and nothing else changes; bits 2:0 of the first
are the code of the control state (R24). -/
def Obligations.StatReadsTheState : Prop :=
  (Ctl.streaming.code = 0 ∧ Ctl.capturing.code = 1 ∧ Ctl.frozenOverlaid.code = 2 ∧ Ctl.editSelect.code = 3 ∧
    Ctl.halted.code = 4) ∧
  PortServes 0xE (fun q => q.extractLsb' 9 15 = 0 ∧ q.extractLsb' 24 16 = 0 ∧ q.extractLsb' 40 16 = 0)
    (fun q => .stat (q.getLsbD 8)) ∧
  ∀ s : State,
    exec (.stat false) s = .next (answered s
      (s.cnt ++ s.fltOp ++ s.fltCause ++ s.dbw ++ (if s.ovl then 1#1 else 0#1) ++ s.ctl.code)) ∧
    exec (.stat true) s = .next (answered s (s.fltY ++ s.fltX)) ∧
    serveRequest 0x000000000000000E#64 s = exec (.stat false) s ∧
    serveRequest 0x000000000000010E#64 s = exec (.stat true) s

/-! ## The agents around the block -/

/-- The DMA writes any value to any slot while the stream is enabled, and takes no step otherwise (R56, R57). That a
listed write while frozen is refused is the model's choice (log entry 9). -/
def Obligations.DmaWritesOnlyWhileStreaming : Prop :=
  ∀ (s : State) (slot : Fin Config.fbSlots) (v : Pixel) (rest : List Move), s.moves = .dma slot v :: rest →
    (s.vctl = 0x4 → ∃ t, step s = .next t ∧ t = { after s rest with fb := t.fb } ∧
      ∀ j, memRead t.fb j = if j = slot.val then v else memRead s.fb j) ∧
    (s.vctl ≠ 0x4 → step s = .refused .dmaWhileFrozen)

/-- Overlay done (R37): only the renderer's done step sets it, only while an overlay is pending; the controller clears
it when it requests an overlay and when it consumes the done. That the done step is refused until the overlay is drawn
is read from R199 and R200 (DEDUCED, log entry 24). -/
def Obligations.OnlyTheRendererSetsDone : Prop :=
  (∀ s t : State, step s = .next t → s.ovlDone = false → t.ovlDone = true →
    s.ovl = true ∧ (∀ j ∈ s.overlaySlots, j ∈ s.inked) ∧ ∃ rest, s.moves = .rendererDone :: rest) ∧
  (∀ (s : State) (rest : List Move), s.moves = .rendererDone :: rest → s.ovl = true → s.ovlDone = false →
    ((∀ j ∈ s.overlaySlots, j ∈ s.inked) → step s = .next { after s rest with ovlDone := true }) ∧
    (¬ (∀ j ∈ s.overlaySlots, j ∈ s.inked) → step s = .refused .rendererNotFinished)) ∧
  ∀ (s : State) (btn : BitVec 32) (time : TimeOfDay), s.ctl = .capturing → s.dbw = 0 →
    (s.ovl = false ∨ s.ovlDone = true) → ∃ t, pollStep btn time s = .next t ∧ t.ovlDone = false

/-- What an overlay changes (R200). Its text is "PIC:", the counter in decimal, " T:" and HH:MM:SS; the points it inks are
those of each character's glyph from the corner of the character's cell, the cells standing side by side from the anchor;
M is the visible ones of them. Drawn in one way: after the moves `overlayMoves` for the overlay requested every
inked visible pixel holds OVL_INK, every other slot keeps its value, and the overlay is done; nothing else has changed.
That list of moves, made with no other move between them, is the model's choice (DESIGN CHOICE, log entry 17);
OverlayChangesItsPixelsOnly speaks of every way. -/
def Obligations.OverlayInksItsPointsOnly : Prop :=
  (∀ (cnt : BitVec 16) (time : TimeOfDay), overlayText cnt time =
    ['P', 'I', 'C', ':'] ++ decimal cnt.toNat ++ [' ', 'T', ':'] ++ twoPlaces time.hh ++ [':'] ++ twoPlaces time.mm ++
      [':'] ++ twoPlaces time.ss) ∧
  (∀ (r : Renderer) (cnt : BitVec 16) (time : TimeOfDay) (u : Int × Int), u ∈ overlayPoints r cnt time ↔
    ∃ (k : Nat) (c : Char) (glyph : List (Nat × Nat)) (px py : Nat),
      (overlayText cnt time)[k]? = some c ∧ r.glyphs.lookup c = some glyph ∧ (px, py) ∈ glyph ∧
      u = (r.anchorX + k * r.cellW + px, r.anchorY + py)) ∧
  (∀ (r : Renderer) (cnt : BitVec 16) (time : TimeOfDay) (j : Nat), j ∈ overlaySlots r cnt time ↔
    ∃ p ∈ overlayPoints r cnt time, 0 ≤ p.1 ∧ p.1 < 320 ∧ 0 ≤ p.2 ∧ p.2 < 240 ∧ (j : Int) = p.2 * 512 + p.1) ∧
  (∀ s : State, s.overlaySlots = overlaySlots s.renderer s.cnt s.ovlTime) ∧
  ∀ (s : State) (rest : List Move),
    s.moves = overlayMoves s.renderer s.cnt s.ovlTime ++ rest → s.ctl = .capturing → s.ovl = true →
    s.ovlDone = false →
    ∃ t, core.run (overlayMoves s.renderer s.cnt s.ovlTime).length s = .next t ∧
      t = { after s rest with fb := t.fb, ovlDone := true, inked := t.inked } ∧
      ∀ j : Nat, ((∃ p ∈ overlayPoints s.renderer s.cnt s.ovlTime, 0 ≤ p.1 ∧ p.1 < 320 ∧ 0 ≤ p.2 ∧ p.2 < 240 ∧
          (j : Int) = p.2 * 512 + p.1) → memRead t.fb j = s.renderer.ink) ∧
        ((¬ ∃ p ∈ overlayPoints s.renderer s.cnt s.ovlTime, 0 ≤ p.1 ∧ p.1 < 320 ∧ 0 ≤ p.2 ∧ p.2 < 240 ∧
          (j : Int) = p.2 * 512 + p.1) → memRead t.fb j = memRead s.fb j)

/-- What an overlay may change (R200), however the renderer draws it: from a pending overlay nothing of which is drawn,
through any polls, renderer's requests, scan-out reads, DMA moves and reading requests of a host, to the done step, if
the run answers next, every visible pixel of the set M becomes OVL_INK and every other slot, padding included, is
unchanged. A host's FSET or FSETC is left to R268, which says that R200 then no longer describes the frame. How the
model holds M and what is drawn of it is its own (DESIGN CHOICE, log entries 17 and 23). -/
def Obligations.OverlayChangesItsPixelsOnly : Prop :=
  ∀ (s t : State) (pre rest : List Move), ControllerInv s → s.ovl = true → s.ovlDone = false → s.inked = [] →
    s.moves = pre ++ .rendererDone :: rest →
    (∀ m ∈ pre, (∃ btn time, m = .poll btn time) ∨ (∃ q, m = .renderer q) ∨ (∃ slot, m = .scanOut slot) ∨
      (∃ slot v, m = .dma slot v) ∨ ∃ q, m = .request q ∧ writesNothing q) →
    core.run (pre.length + 1) s = .next t →
    t.ovlDone = true ∧ (∀ j ∈ s.overlaySlots, visible j) ∧ (∀ j ∈ s.overlaySlots, memRead t.fb j = s.renderer.ink) ∧
    ∀ j, j ∉ s.overlaySlots → memRead t.fb j = memRead s.fb j

/-- The overlay's invariant (R200): no step changes the renderer's parameters; the step that requests an overlay starts
the invariant from the frame as it is, for the counter and the time of its event; and while the overlay is pending every
step but a host's FSET or FSETC (R268) and a reset keeps it, and keeps the set M. How the model holds M and what is drawn
of it is its own (DESIGN CHOICE, log entries 17 and 23). -/
def Obligations.StepKeepsOverlayInvariant : Prop :=
  (∀ s t : State, step s = .next t → t.renderer = s.renderer) ∧
  (∀ s t : State, step s = .next t → s.ovl = false → t.ovl = true →
    OverlayInv s.fb t ∧ t.hist = s.hist ++ [.ovlReq t.cnt t.ovlTime]) ∧
  ∀ (frame : Memory) (s t : State), ControllerInv s → s.ovl = true → OverlayInv frame s →
    (∀ q rest, s.moves = .request q :: rest → writesNothing q) → (∀ rest, s.moves ≠ .reset :: rest) →
    step s = .next t →
    OverlayInv frame t ∧ t.overlaySlots = s.overlaySlots

/-- The renderer's moves (R199, R200, I9). In its window an FSETC inside the frame is served if it writes OVL_INK to a
pixel of the overlay, and that slot alone changes; one outside the frame is dropped, whatever its colour (DEDUCED, log
entry 24); any other is refused. A word that is neither FSET nor FSETC is served as a host's, one that decodes to nothing
too (DEDUCED, log entry 18); an FSET is refused. Outside its window a request and the done step are refused. The refusals
are the model's choice (DESIGN CHOICE, log entry 9). -/
def Obligations.RendererDrawsItsOverlay : Prop :=
  (∀ (s : State) (q : Request) (rest : List Move), s.moves = .renderer q :: rest → s.ovl = true → s.ovlDone = false →
    (writesNothing q → step s = serveRequest q (after s rest)) ∧
    ∀ x y p, decode q = .ok (.fset x y p) → step s = .refused .rendererWriteNotClipped) ∧
  (∀ (s : State) (rest : List Move), s.ovl = false ∨ s.ovlDone = true →
    (∀ q, s.moves = .renderer q :: rest → step s = .refused .rendererOutsideWindow) ∧
    (s.moves = .rendererDone :: rest → step s = .refused .rendererOutsideWindow)) ∧
  ∀ (s : State) (q : Request) (x y : Operand) (p : Pixel) (rest : List Move), s.moves = .renderer q :: rest →
    decode q = .ok (.fsetc x y p) → s.ctl ≠ .halted → s.ovl = true → s.ovlDone = false →
    (¬ onFrame x y → step s = .next (answered (after s rest) 0)) ∧
    (onFrame x y → p = s.renderer.ink → y.toNat * 512 + x.toNat ∈ s.overlaySlots →
      ∃ t, step s = .next t ∧
        t = { after s rest with fb := t.fb, inked := t.inked, resp := some ⟨0, 0⟩ } ∧
        (∀ j, j ∈ t.inked ↔ j = y.toNat * 512 + x.toNat ∨ j ∈ s.inked) ∧
        ∀ j, memRead t.fb j = if j = y.toNat * 512 + x.toNat then s.renderer.ink else memRead s.fb j) ∧
    (onFrame x y → ¬ (p = s.renderer.ink ∧ y.toNat * 512 + x.toNat ∈ s.overlaySlots) →
      step s = .refused .rendererOutsideOverlay)

/-- Reset (R36, R260): from every state, each field of the block at its reset value; the port gets no write. R36
leaves every slot unspecified: that each byte is then a free value of this reset is the model's choice (DESIGN CHOICE,
log entry 4). -/
def Obligations.ResetSetsEveryField : Prop :=
  ∀ (s : State) (rest : List Move), s.moves = .reset :: rest →
    ∃ t, step s = .next t ∧ t.ctl = .streaming ∧ t.dbw = 0 ∧ t.ovl = false ∧ t.ovlDone = false ∧ t.cnt = 0 ∧
      t.fltCause = 0 ∧ t.fltOp = 0 ∧ t.fltX = 0 ∧ t.fltY = 0 ∧ t.hist = [] ∧ t.vctl = Config.vctlReset ∧
      ∀ k, t.fb.byte k = Config.resetByte (s.fb.epoch + 1) k

/-- The state right after power-up has the reset value of every field (R36). R36 leaves every slot unspecified: that
each byte is a free value of the first reset is the model's choice (DESIGN CHOICE, log entry 4). -/
def Obligations.PowerUpValues : Prop :=
  State.reset.ctl = .streaming ∧ State.reset.dbw = 0 ∧ State.reset.ovl = false ∧ State.reset.ovlDone = false ∧
  State.reset.cnt = 0 ∧ State.reset.fltCause = 0 ∧ State.reset.fltOp = 0 ∧ State.reset.fltX = 0 ∧
  State.reset.fltY = 0 ∧ State.reset.hist = [] ∧ State.reset.vctl = Config.vctlReset ∧
  ∀ k, State.reset.fb.byte k = Config.resetByte 0 k

/-- Every step answers: no step faults, and a step is refused only where the list names a move the spec does not admit
(R56, R199, R200, R203). The refusals are the model's choice (DESIGN CHOICE, log entry 9). -/
def Obligations.StepAlwaysAnswers : Prop :=
  ∀ s : State, (∃ t, step s = .next t) ∨
    (step s = .refused .dmaWhileFrozen ∧ s.vctl ≠ 0x4 ∧ ∃ slot v rest, s.moves = .dma slot v :: rest) ∨
    (step s = .refused .rendererOutsideWindow ∧ (s.ovl = false ∨ s.ovlDone = true) ∧
      ((∃ rest, s.moves = .rendererDone :: rest) ∨ ∃ q rest, s.moves = .renderer q :: rest)) ∨
    (step s = .refused .rendererWriteNotClipped ∧
      ∃ q rest x y p, s.moves = .renderer q :: rest ∧ decode q = .ok (.fset x y p)) ∨
    (step s = .refused .rendererOutsideOverlay ∧
      ∃ q rest x y p, s.moves = .renderer q :: rest ∧ decode q = .ok (.fsetc x y p) ∧ onFrame x y ∧
        ¬ (p = s.renderer.ink ∧ y.toNat * 512 + x.toNat ∈ s.overlaySlots)) ∨
    (step s = .refused .rendererNotFinished ∧
      ∃ rest j, s.moves = .rendererDone :: rest ∧ j ∈ s.overlaySlots ∧ j ∉ s.inked)

/-- The scan-out changes no state (R58). -/
def Obligations.ScanOutChangesNothing : Prop :=
  ∀ (s : State) (slot : Fin Config.fbSlots) (rest : List Move), s.moves = .scanOut slot :: rest →
    step s = .next (after s rest)

/-! ## The framebuffer region -/

/-- Every step keeps the region in its canonical form: keys strictly rising, all inside the region of R50. The form is
the model's choice of how the region is held (DESIGN CHOICE, log entry 5). -/
def Obligations.StepKeepsMemoryForm : Prop := ∀ s t : State, s.fb.wf → step s = .next t → t.fb.wf

/-- Reset's region has the canonical form, which is the model's choice (DESIGN CHOICE, log entry 5). -/
def Obligations.ResetMemoryForm : Prop := State.reset.fb.wf

/-- Slot and byte addresses (R52 to R54): a slot lies at an even byte address, and a write of a slot puts its low byte
there and its high byte at the next if the order is little-endian, the other way round if it is big-endian. -/
def Obligations.SlotBytesOnTheBus : Prop :=
  ∀ (m : Memory) (i : Nat) (v : Pixel), i < Config.fbSlots →
    slotAddress i = Config.fbBase + 2 * i ∧ slotAddress i % 2 = 0 ∧
    (memWrite m i v).busByteIn .little (slotAddress i) = some (v.extractLsb' 0 8) ∧
    (memWrite m i v).busByteIn .little (slotAddress i + 1) = some (v.extractLsb' 8 8) ∧
    (memWrite m i v).busByteIn .big (slotAddress i) = some (v.extractLsb' 8 8) ∧
    (memWrite m i v).busByteIn .big (slotAddress i + 1) = some (v.extractLsb' 0 8)
end

