-- ==== Sys2Proof/Laws/Codec.lean ====
section
/-! SUPPORT. The codec's functions as arithmetic: channels as quotients and remainders, Encode and To8 as sums. -/

namespace Sys2Proof.Machine

theorem decodePixel_r (p : Pixel) : (decodePixel p).r = p.toNat / 2048 := by
  have h := p.isLt
  show p.toNat >>> 11 &&& 2 ^ 5 - 1 = _
  rw [Nat.and_two_pow_sub_one_eq_mod, Nat.shiftRight_eq_div_pow]
  omega

theorem decodePixel_g (p : Pixel) : (decodePixel p).g = p.toNat / 32 % 64 := by
  show p.toNat >>> 5 &&& 2 ^ 6 - 1 = _
  rw [Nat.and_two_pow_sub_one_eq_mod, Nat.shiftRight_eq_div_pow]

theorem decodePixel_b (p : Pixel) : (decodePixel p).b = p.toNat % 32 := by
  show p.toNat &&& 2 ^ 5 - 1 = _
  rw [Nat.and_two_pow_sub_one_eq_mod]

theorem encodePixel_toNat (r g b : Nat) :
    (encodePixel r g b).toNat = r % 32 * 2048 + g % 64 * 32 + b % 32 := by
  have h : encodePixel r g b
      = BitVec.ofNat 16 (((r &&& 2 ^ 5 - 1) <<< 6 ||| (g &&& 2 ^ 6 - 1)) <<< 5 ||| (b &&& 2 ^ 5 - 1)) := by
    simp only [encodePixel, Nat.shiftLeft_or_distrib, ← Nat.shiftLeft_add]
    rfl
  have h1 : g % 2 ^ 6 < 2 ^ 6 := Nat.mod_lt _ (by decide)
  have h2 : b % 2 ^ 5 < 2 ^ 5 := Nat.mod_lt _ (by decide)
  rw [h, BitVec.toNat_ofNat, Nat.and_two_pow_sub_one_eq_mod, Nat.and_two_pow_sub_one_eq_mod,
    Nat.and_two_pow_sub_one_eq_mod, ← Nat.shiftLeft_add_eq_or_of_lt h1, ← Nat.shiftLeft_add_eq_or_of_lt h2,
    Nat.shiftLeft_eq, Nat.shiftLeft_eq]
  omega

theorem to8_five {v : Nat} (h : v < 32) : to8 v 5 = v * 8 + v / 4 := by
  have h1 : v / 2 ^ 2 < 2 ^ 3 := by omega
  show v <<< 3 ||| v >>> 2 = _
  rw [Nat.shiftRight_eq_div_pow, ← Nat.shiftLeft_add_eq_or_of_lt h1, Nat.shiftLeft_eq]
  rfl

theorem to8_six {v : Nat} (h : v < 64) : to8 v 6 = v * 4 + v / 16 := by
  have h1 : v / 2 ^ 4 < 2 ^ 2 := by omega
  show v <<< 2 ||| v >>> 4 = _
  rw [Nat.shiftRight_eq_div_pow, ← Nat.shiftLeft_add_eq_or_of_lt h1, Nat.shiftLeft_eq]
  rfl

theorem decodePixel_r_lt (p : Pixel) : (decodePixel p).r < 32 := by
  have := p.isLt
  rw [decodePixel_r]; omega

theorem decodePixel_g_lt (p : Pixel) : (decodePixel p).g < 64 := by
  rw [decodePixel_g]; omega

theorem decodePixel_b_lt (p : Pixel) : (decodePixel p).b < 32 := by
  rw [decodePixel_b]; omega

/-- gray8 lies in 0..255 (spec/42_transform_engine.md R163). -/
theorem gray8_lt (p : Pixel) : gray8 p < 256 := by
  have hr := decodePixel_r_lt p
  have hg := decodePixel_g_lt p
  have hb := decodePixel_b_lt p
  simp only [gray8, to8_five hr, to8_six hg, to8_five hb]
  omega

end Sys2Proof.Machine
end

