-- ==== Sys2Proof/Laws/Decode.lean ====
section
/-! SUPPORT. The decoder and the encoder field by field: what the fields of a built word are, what a word is when its
must-be-zero bytes are zero, and when a decode arm accepts. -/
namespace Sys2Proof

theorem toNat_append_add {m n : Nat} (x : BitVec m) (y : BitVec n) : (x ++ y).toNat = x.toNat * 2 ^ n + y.toNat := by
  rw [BitVec.toNat_append, ← Nat.shiftLeft_add_eq_or_of_lt y.isLt, Nat.shiftLeft_eq]

theorem word_toNat (op : Code) (a b c : Operand) :
    (word op a b c).toNat = op.toNat + 2 ^ 8 * a.toNat + 2 ^ 24 * b.toNat + 2 ^ 40 * c.toNat := by
  simp only [word, toNat_append_add, BitVec.toNat_ofNat]
  omega

theorem extract_toNat {n : Nat} (x : BitVec n) (s k : Nat) : (x.extractLsb' s k).toNat = x.toNat / 2 ^ s % 2 ^ k := by
  simp [BitVec.extractLsb'_toNat, Nat.shiftRight_eq_div_pow]

@[simp] theorem opField_word (op : Code) (a b c : Operand) : opField (word op a b c) = op := by
  apply BitVec.eq_of_toNat_eq
  have := op.isLt
  simp only [opField, extract_toNat, word_toNat]
  omega

@[simp] theorem zeroLow_word (op : Code) (a b c : Operand) : zeroLow (word op a b c) = 0 := by
  apply BitVec.eq_of_toNat_eq
  have := op.isLt
  simp only [zeroLow, extract_toNat, word_toNat, BitVec.ofNat_eq_ofNat, BitVec.toNat_ofNat]
  omega

@[simp] theorem fieldA_word (op : Code) (a b c : Operand) : fieldA (word op a b c) = a := by
  apply BitVec.eq_of_toNat_eq
  have := op.isLt
  have := a.isLt
  simp only [fieldA, extract_toNat, word_toNat]
  omega

@[simp] theorem fieldB_word (op : Code) (a b c : Operand) : fieldB (word op a b c) = b := by
  apply BitVec.eq_of_toNat_eq
  have := op.isLt
  have := a.isLt
  have := b.isLt
  simp only [fieldB, extract_toNat, word_toNat]
  omega

@[simp] theorem fieldC_word (op : Code) (a b c : Operand) : fieldC (word op a b c) = c := by
  apply BitVec.eq_of_toNat_eq
  have := op.isLt
  have := a.isLt
  have := b.isLt
  have := c.isLt
  simp only [fieldC, extract_toNat, word_toNat]
  omega

@[simp] theorem zeroHigh_word (op : Code) (a b c : Operand) : zeroHigh (word op a b c) = 0 := by
  apply BitVec.eq_of_toNat_eq
  have := op.isLt
  have := a.isLt
  have := b.isLt
  have := c.isLt
  simp only [zeroHigh, extract_toNat, word_toNat, BitVec.ofNat_eq_ofNat, BitVec.toNat_ofNat]
  omega

/-- A word whose must-be-zero bytes are zero is the word of its fields. -/
theorem word_of_fields {q : Request} (h0 : zeroLow q = 0) (h1 : zeroHigh q = 0) :
    word (opField q) (fieldA q) (fieldB q) (fieldC q) = q := by
  apply BitVec.eq_of_toNat_eq
  have := q.isLt
  have h0 := congrArg BitVec.toNat h0
  have h1 := congrArg BitVec.toNat h1
  simp only [zeroLow, zeroHigh, extract_toNat, BitVec.ofNat_eq_ofNat, BitVec.toNat_ofNat] at h0 h1
  simp only [word_toNat, opField, fieldA, fieldB, fieldC, extract_toNat]
  omega

theorem accept_ok {q : Request} {z : Bool} {i j : Instr} :
    accept q z i = .ok j ↔ (zeroLow q = 0 ∧ zeroHigh q = 0 ∧ z = true) ∧ i = j := by
  unfold accept
  split_ifs with h
  · simp [h]
  · simp only [false_iff]; exact fun h' => h h'.1

theorem accept_word {op : Code} {a b c : Operand} {z : Bool} {i : Instr} (h : z = true) :
    accept (word op a b c) z i = .ok i :=
  accept_ok.mpr ⟨⟨zeroLow_word .., zeroHigh_word .., h⟩, rfl⟩

end Sys2Proof
end

