-- ==== Sys2Proof/Laws/State.lean ====
section
/-! SUPPORT. Every field of the state after each named update: what the update writes, and that it writes nothing
else. -/

namespace Sys2Proof.Machine

variable (s : State)

/-! ## A response -/

@[simp] theorem State.respond_ctl (status : Code) (rdata : BitVec 32) : (s.respond status rdata).ctl = s.ctl := rfl
@[simp] theorem State.respond_dbw (status : Code) (rdata : BitVec 32) : (s.respond status rdata).dbw = s.dbw := rfl
@[simp] theorem State.respond_ovl (status : Code) (rdata : BitVec 32) : (s.respond status rdata).ovl = s.ovl := rfl
@[simp] theorem State.respond_ovlDone (status : Code) (rdata : BitVec 32) : (s.respond status rdata).ovlDone = s.ovlDone := rfl
@[simp] theorem State.respond_cnt (status : Code) (rdata : BitVec 32) : (s.respond status rdata).cnt = s.cnt := rfl
@[simp] theorem State.respond_fltCause (status : Code) (rdata : BitVec 32) : (s.respond status rdata).fltCause = s.fltCause := rfl
@[simp] theorem State.respond_fltOp (status : Code) (rdata : BitVec 32) : (s.respond status rdata).fltOp = s.fltOp := rfl
@[simp] theorem State.respond_fltX (status : Code) (rdata : BitVec 32) : (s.respond status rdata).fltX = s.fltX := rfl
@[simp] theorem State.respond_fltY (status : Code) (rdata : BitVec 32) : (s.respond status rdata).fltY = s.fltY := rfl
@[simp] theorem State.respond_vctl (status : Code) (rdata : BitVec 32) : (s.respond status rdata).vctl = s.vctl := rfl
@[simp] theorem State.respond_fb (status : Code) (rdata : BitVec 32) : (s.respond status rdata).fb = s.fb := rfl
@[simp] theorem State.respond_hist (status : Code) (rdata : BitVec 32) : (s.respond status rdata).hist = s.hist := rfl
@[simp] theorem State.respond_moves (status : Code) (rdata : BitVec 32) : (s.respond status rdata).moves = s.moves := rfl
@[simp] theorem State.respond_renderer (status : Code) (rdata : BitVec 32) : (s.respond status rdata).renderer = s.renderer := rfl
@[simp] theorem State.respond_ovlTime (status : Code) (rdata : BitVec 32) : (s.respond status rdata).ovlTime = s.ovlTime := rfl
@[simp] theorem State.respond_inked (status : Code) (rdata : BitVec 32) : (s.respond status rdata).inked = s.inked := rfl
@[simp] theorem State.respond_draws (status : Code) (rdata : BitVec 32) : (s.respond status rdata).draws = s.draws := rfl
@[simp] theorem State.respond_resp (status : Code) (rdata : BitVec 32) : (s.respond status rdata).resp = some ⟨status, rdata⟩ := rfl

/-! ## An event -/

@[simp] theorem State.record_ctl (e : Event) : (s.record e).ctl = s.ctl := rfl
@[simp] theorem State.record_dbw (e : Event) : (s.record e).dbw = s.dbw := rfl
@[simp] theorem State.record_ovl (e : Event) : (s.record e).ovl = s.ovl := rfl
@[simp] theorem State.record_ovlDone (e : Event) : (s.record e).ovlDone = s.ovlDone := rfl
@[simp] theorem State.record_cnt (e : Event) : (s.record e).cnt = s.cnt := rfl
@[simp] theorem State.record_fltCause (e : Event) : (s.record e).fltCause = s.fltCause := rfl
@[simp] theorem State.record_fltOp (e : Event) : (s.record e).fltOp = s.fltOp := rfl
@[simp] theorem State.record_fltX (e : Event) : (s.record e).fltX = s.fltX := rfl
@[simp] theorem State.record_fltY (e : Event) : (s.record e).fltY = s.fltY := rfl
@[simp] theorem State.record_vctl (e : Event) : (s.record e).vctl = s.vctl := rfl
@[simp] theorem State.record_fb (e : Event) : (s.record e).fb = s.fb := rfl
@[simp] theorem State.record_hist (e : Event) : (s.record e).hist = s.hist ++ [e] := rfl
@[simp] theorem State.record_moves (e : Event) : (s.record e).moves = s.moves := rfl
@[simp] theorem State.record_renderer (e : Event) : (s.record e).renderer = s.renderer := rfl
@[simp] theorem State.record_ovlTime (e : Event) : (s.record e).ovlTime = s.ovlTime := rfl
@[simp] theorem State.record_inked (e : Event) : (s.record e).inked = s.inked := rfl
@[simp] theorem State.record_draws (e : Event) : (s.record e).draws = s.draws := rfl
@[simp] theorem State.record_resp (e : Event) : (s.record e).resp = s.resp := rfl

/-! ## A write of the video control port -/

@[simp] theorem State.vctlWrite_ctl (v : BitVec 32) : (s.vctlWrite v).ctl = s.ctl := rfl
@[simp] theorem State.vctlWrite_dbw (v : BitVec 32) : (s.vctlWrite v).dbw = s.dbw := rfl
@[simp] theorem State.vctlWrite_ovl (v : BitVec 32) : (s.vctlWrite v).ovl = s.ovl := rfl
@[simp] theorem State.vctlWrite_ovlDone (v : BitVec 32) : (s.vctlWrite v).ovlDone = s.ovlDone := rfl
@[simp] theorem State.vctlWrite_cnt (v : BitVec 32) : (s.vctlWrite v).cnt = s.cnt := rfl
@[simp] theorem State.vctlWrite_fltCause (v : BitVec 32) : (s.vctlWrite v).fltCause = s.fltCause := rfl
@[simp] theorem State.vctlWrite_fltOp (v : BitVec 32) : (s.vctlWrite v).fltOp = s.fltOp := rfl
@[simp] theorem State.vctlWrite_fltX (v : BitVec 32) : (s.vctlWrite v).fltX = s.fltX := rfl
@[simp] theorem State.vctlWrite_fltY (v : BitVec 32) : (s.vctlWrite v).fltY = s.fltY := rfl
@[simp] theorem State.vctlWrite_vctl (v : BitVec 32) : (s.vctlWrite v).vctl = v := rfl
@[simp] theorem State.vctlWrite_fb (v : BitVec 32) : (s.vctlWrite v).fb = s.fb := rfl
@[simp] theorem State.vctlWrite_hist (v : BitVec 32) : (s.vctlWrite v).hist = s.hist ++ [.vctl v] := rfl
@[simp] theorem State.vctlWrite_moves (v : BitVec 32) : (s.vctlWrite v).moves = s.moves := rfl
@[simp] theorem State.vctlWrite_renderer (v : BitVec 32) : (s.vctlWrite v).renderer = s.renderer := rfl
@[simp] theorem State.vctlWrite_ovlTime (v : BitVec 32) : (s.vctlWrite v).ovlTime = s.ovlTime := rfl
@[simp] theorem State.vctlWrite_inked (v : BitVec 32) : (s.vctlWrite v).inked = s.inked := rfl
@[simp] theorem State.vctlWrite_draws (v : BitVec 32) : (s.vctlWrite v).draws = s.draws := rfl
@[simp] theorem State.vctlWrite_resp (v : BitVec 32) : (s.vctlWrite v).resp = s.resp := rfl

/-! ## New contents of the framebuffer region -/

@[simp] theorem State.withFrame_ctl (m : Memory) : (s.withFrame m).ctl = s.ctl := rfl
@[simp] theorem State.withFrame_dbw (m : Memory) : (s.withFrame m).dbw = s.dbw := rfl
@[simp] theorem State.withFrame_ovl (m : Memory) : (s.withFrame m).ovl = s.ovl := rfl
@[simp] theorem State.withFrame_ovlDone (m : Memory) : (s.withFrame m).ovlDone = s.ovlDone := rfl
@[simp] theorem State.withFrame_cnt (m : Memory) : (s.withFrame m).cnt = s.cnt := rfl
@[simp] theorem State.withFrame_fltCause (m : Memory) : (s.withFrame m).fltCause = s.fltCause := rfl
@[simp] theorem State.withFrame_fltOp (m : Memory) : (s.withFrame m).fltOp = s.fltOp := rfl
@[simp] theorem State.withFrame_fltX (m : Memory) : (s.withFrame m).fltX = s.fltX := rfl
@[simp] theorem State.withFrame_fltY (m : Memory) : (s.withFrame m).fltY = s.fltY := rfl
@[simp] theorem State.withFrame_vctl (m : Memory) : (s.withFrame m).vctl = s.vctl := rfl
@[simp] theorem State.withFrame_fb (m : Memory) : (s.withFrame m).fb = m := rfl
@[simp] theorem State.withFrame_hist (m : Memory) : (s.withFrame m).hist = s.hist := rfl
@[simp] theorem State.withFrame_moves (m : Memory) : (s.withFrame m).moves = s.moves := rfl
@[simp] theorem State.withFrame_renderer (m : Memory) : (s.withFrame m).renderer = s.renderer := rfl
@[simp] theorem State.withFrame_ovlTime (m : Memory) : (s.withFrame m).ovlTime = s.ovlTime := rfl
@[simp] theorem State.withFrame_inked (m : Memory) : (s.withFrame m).inked = s.inked := rfl
@[simp] theorem State.withFrame_draws (m : Memory) : (s.withFrame m).draws = s.draws := rfl
@[simp] theorem State.withFrame_resp (m : Memory) : (s.withFrame m).resp = s.resp := rfl

/-! ## Halting -/

@[simp] theorem State.enterHalted_ctl  : (s.enterHalted).ctl = .halted := rfl
@[simp] theorem State.enterHalted_dbw  : (s.enterHalted).dbw = 0 := rfl
@[simp] theorem State.enterHalted_ovl  : (s.enterHalted).ovl = s.ovl := rfl
@[simp] theorem State.enterHalted_ovlDone  : (s.enterHalted).ovlDone = s.ovlDone := rfl
@[simp] theorem State.enterHalted_cnt  : (s.enterHalted).cnt = s.cnt := rfl
@[simp] theorem State.enterHalted_fltCause  : (s.enterHalted).fltCause = s.fltCause := rfl
@[simp] theorem State.enterHalted_fltOp  : (s.enterHalted).fltOp = s.fltOp := rfl
@[simp] theorem State.enterHalted_fltX  : (s.enterHalted).fltX = s.fltX := rfl
@[simp] theorem State.enterHalted_fltY  : (s.enterHalted).fltY = s.fltY := rfl
@[simp] theorem State.enterHalted_vctl  : (s.enterHalted).vctl = s.vctl := rfl
@[simp] theorem State.enterHalted_fb  : (s.enterHalted).fb = s.fb := rfl
@[simp] theorem State.enterHalted_hist  : (s.enterHalted).hist = s.hist := rfl
@[simp] theorem State.enterHalted_moves  : (s.enterHalted).moves = s.moves := rfl
@[simp] theorem State.enterHalted_renderer  : (s.enterHalted).renderer = s.renderer := rfl
@[simp] theorem State.enterHalted_ovlTime  : (s.enterHalted).ovlTime = s.ovlTime := rfl
@[simp] theorem State.enterHalted_inked  : (s.enterHalted).inked = s.inked := rfl
@[simp] theorem State.enterHalted_draws  : (s.enterHalted).draws = s.draws := rfl
@[simp] theorem State.enterHalted_resp  : (s.enterHalted).resp = s.resp := rfl

/-! ## The first-fault record -/

@[simp] theorem State.recordFirstFault_ctl (code op : Code) (a b : Operand) :
    (s.recordFirstFault code op a b).ctl = s.ctl := by
  unfold State.recordFirstFault; split <;> rfl
@[simp] theorem State.recordFirstFault_dbw (code op : Code) (a b : Operand) :
    (s.recordFirstFault code op a b).dbw = s.dbw := by
  unfold State.recordFirstFault; split <;> rfl
@[simp] theorem State.recordFirstFault_ovl (code op : Code) (a b : Operand) :
    (s.recordFirstFault code op a b).ovl = s.ovl := by
  unfold State.recordFirstFault; split <;> rfl
@[simp] theorem State.recordFirstFault_ovlDone (code op : Code) (a b : Operand) :
    (s.recordFirstFault code op a b).ovlDone = s.ovlDone := by
  unfold State.recordFirstFault; split <;> rfl
@[simp] theorem State.recordFirstFault_cnt (code op : Code) (a b : Operand) :
    (s.recordFirstFault code op a b).cnt = s.cnt := by
  unfold State.recordFirstFault; split <;> rfl
@[simp] theorem State.recordFirstFault_fltCause (code op : Code) (a b : Operand) :
    (s.recordFirstFault code op a b).fltCause = if s.fltCause = 0 then code else s.fltCause := by
  unfold State.recordFirstFault; split <;> rfl
@[simp] theorem State.recordFirstFault_fltOp (code op : Code) (a b : Operand) :
    (s.recordFirstFault code op a b).fltOp = if s.fltCause = 0 then op else s.fltOp := by
  unfold State.recordFirstFault; split <;> rfl
@[simp] theorem State.recordFirstFault_fltX (code op : Code) (a b : Operand) :
    (s.recordFirstFault code op a b).fltX = if s.fltCause = 0 then a else s.fltX := by
  unfold State.recordFirstFault; split <;> rfl
@[simp] theorem State.recordFirstFault_fltY (code op : Code) (a b : Operand) :
    (s.recordFirstFault code op a b).fltY = if s.fltCause = 0 then b else s.fltY := by
  unfold State.recordFirstFault; split <;> rfl
@[simp] theorem State.recordFirstFault_vctl (code op : Code) (a b : Operand) :
    (s.recordFirstFault code op a b).vctl = s.vctl := by
  unfold State.recordFirstFault; split <;> rfl
@[simp] theorem State.recordFirstFault_fb (code op : Code) (a b : Operand) :
    (s.recordFirstFault code op a b).fb = s.fb := by
  unfold State.recordFirstFault; split <;> rfl
@[simp] theorem State.recordFirstFault_hist (code op : Code) (a b : Operand) :
    (s.recordFirstFault code op a b).hist = s.hist := by
  unfold State.recordFirstFault; split <;> rfl
@[simp] theorem State.recordFirstFault_moves (code op : Code) (a b : Operand) :
    (s.recordFirstFault code op a b).moves = s.moves := by
  unfold State.recordFirstFault; split <;> rfl
@[simp] theorem State.recordFirstFault_renderer (code op : Code) (a b : Operand) :
    (s.recordFirstFault code op a b).renderer = s.renderer := by
  unfold State.recordFirstFault; split <;> rfl
@[simp] theorem State.recordFirstFault_ovlTime (code op : Code) (a b : Operand) :
    (s.recordFirstFault code op a b).ovlTime = s.ovlTime := by
  unfold State.recordFirstFault; split <;> rfl
@[simp] theorem State.recordFirstFault_inked (code op : Code) (a b : Operand) :
    (s.recordFirstFault code op a b).inked = s.inked := by
  unfold State.recordFirstFault; split <;> rfl
@[simp] theorem State.recordFirstFault_draws (code op : Code) (a b : Operand) :
    (s.recordFirstFault code op a b).draws = s.draws := by
  unfold State.recordFirstFault; split <;> rfl
@[simp] theorem State.recordFirstFault_resp (code op : Code) (a b : Operand) :
    (s.recordFirstFault code op a b).resp = s.resp := by
  unfold State.recordFirstFault; split <;> rfl

/-! ## A fault -/

@[simp] theorem State.raiseFault_ctl (code : FaultCode) (op : Code) (a b : Operand) :
    (s.raiseFault code op a b).ctl = s.ctl := by
  simp [State.raiseFault]
@[simp] theorem State.raiseFault_dbw (code : FaultCode) (op : Code) (a b : Operand) :
    (s.raiseFault code op a b).dbw = s.dbw := by
  simp [State.raiseFault]
@[simp] theorem State.raiseFault_ovl (code : FaultCode) (op : Code) (a b : Operand) :
    (s.raiseFault code op a b).ovl = s.ovl := by
  simp [State.raiseFault]
@[simp] theorem State.raiseFault_ovlDone (code : FaultCode) (op : Code) (a b : Operand) :
    (s.raiseFault code op a b).ovlDone = s.ovlDone := by
  simp [State.raiseFault]
@[simp] theorem State.raiseFault_cnt (code : FaultCode) (op : Code) (a b : Operand) :
    (s.raiseFault code op a b).cnt = s.cnt := by
  simp [State.raiseFault]
@[simp] theorem State.raiseFault_fltCause (code : FaultCode) (op : Code) (a b : Operand) :
    (s.raiseFault code op a b).fltCause = if s.fltCause = 0 then code.code else s.fltCause :=
  State.recordFirstFault_fltCause (s.record (.fault code.code op a b)) code.code op a b
@[simp] theorem State.raiseFault_fltOp (code : FaultCode) (op : Code) (a b : Operand) :
    (s.raiseFault code op a b).fltOp = if s.fltCause = 0 then op else s.fltOp :=
  State.recordFirstFault_fltOp (s.record (.fault code.code op a b)) code.code op a b
@[simp] theorem State.raiseFault_fltX (code : FaultCode) (op : Code) (a b : Operand) :
    (s.raiseFault code op a b).fltX = if s.fltCause = 0 then a else s.fltX :=
  State.recordFirstFault_fltX (s.record (.fault code.code op a b)) code.code op a b
@[simp] theorem State.raiseFault_fltY (code : FaultCode) (op : Code) (a b : Operand) :
    (s.raiseFault code op a b).fltY = if s.fltCause = 0 then b else s.fltY :=
  State.recordFirstFault_fltY (s.record (.fault code.code op a b)) code.code op a b
@[simp] theorem State.raiseFault_vctl (code : FaultCode) (op : Code) (a b : Operand) :
    (s.raiseFault code op a b).vctl = s.vctl := by
  simp [State.raiseFault]
@[simp] theorem State.raiseFault_fb (code : FaultCode) (op : Code) (a b : Operand) :
    (s.raiseFault code op a b).fb = s.fb := by
  simp [State.raiseFault]
@[simp] theorem State.raiseFault_hist (code : FaultCode) (op : Code) (a b : Operand) :
    (s.raiseFault code op a b).hist = s.hist ++ [.fault code.code op a b] := by
  simp [State.raiseFault]
@[simp] theorem State.raiseFault_moves (code : FaultCode) (op : Code) (a b : Operand) :
    (s.raiseFault code op a b).moves = s.moves := by
  simp [State.raiseFault]
@[simp] theorem State.raiseFault_renderer (code : FaultCode) (op : Code) (a b : Operand) :
    (s.raiseFault code op a b).renderer = s.renderer := by
  simp [State.raiseFault]
@[simp] theorem State.raiseFault_ovlTime (code : FaultCode) (op : Code) (a b : Operand) :
    (s.raiseFault code op a b).ovlTime = s.ovlTime := by
  simp [State.raiseFault]
@[simp] theorem State.raiseFault_inked (code : FaultCode) (op : Code) (a b : Operand) :
    (s.raiseFault code op a b).inked = s.inked := by
  simp [State.raiseFault]
@[simp] theorem State.raiseFault_draws (code : FaultCode) (op : Code) (a b : Operand) :
    (s.raiseFault code op a b).draws = s.draws := by
  simp [State.raiseFault]
@[simp] theorem State.raiseFault_resp (code : FaultCode) (op : Code) (a b : Operand) :
    (s.raiseFault code op a b).resp = some ⟨code.code, 0⟩ := by
  simp [State.raiseFault]

end Sys2Proof.Machine
end

