-- ==== Sys2Proof/Laws/Memory.lean ====
section
/-! SUPPORT. The laws of the framebuffer region: what a byte and a slot read as after a write, and that a write keeps
the canonical form. -/

namespace Sys2Proof.Machine

/-! ## Cells -/

theorem cellRead_cellWrite_self (k : Nat) (v : Byte) (l : List Host.Cell) :
    cellRead k (cellWrite k v l) = some v := by
  induction l with
  | nil => simp [cellWrite, cellRead]
  | cons c rest ih =>
    simp only [cellWrite]
    split_ifs with h1 h2 <;> simp [cellRead, ih]
    omega

theorem cellRead_cellWrite_other {j k : Nat} (h : j ≠ k) (v : Byte) (l : List Host.Cell) :
    cellRead j (cellWrite k v l) = cellRead j l := by
  induction l with
  | nil => simp [cellWrite, cellRead, h.symm]
  | cons c rest ih =>
    simp only [cellWrite]
    split_ifs with h1 h2 <;> simp [cellRead, ih, h.symm]
    intro h3; omega

/-- The keys after a write are the old ones and the written one. -/
theorem mem_cellWrite {k : Nat} {v : Byte} {l : List Host.Cell} {c : Host.Cell} (h : c ∈ cellWrite k v l) :
    c.1 = k ∨ c ∈ l := by
  induction l with
  | nil => simp_all [cellWrite]
  | cons d rest ih =>
    simp only [cellWrite] at h
    split_ifs at h with h1 h2
    · rcases List.mem_cons.mp h with rfl | h
      · exact .inl rfl
      · exact .inr h
    · rcases List.mem_cons.mp h with rfl | h
      · exact .inl rfl
      · exact .inr (List.mem_cons_of_mem _ h)
    · rcases List.mem_cons.mp h with rfl | h
      · exact .inr List.mem_cons_self
      · exact (ih h).imp id (List.mem_cons_of_mem _)

theorem cellWrite_rising (k : Nat) (v : Byte) {l : List Host.Cell} (h : (l.map Prod.fst).Pairwise (· < ·)) :
    ((cellWrite k v l).map Prod.fst).Pairwise (· < ·) := by
  induction l with
  | nil => simp [cellWrite]
  | cons c rest ih =>
    simp only [List.map_cons, List.pairwise_cons] at h
    simp only [cellWrite]
    split_ifs with h1 h2
    · refine List.pairwise_cons.mpr ⟨?_, List.pairwise_cons.mpr h⟩
      intro a ha
      rcases List.mem_cons.mp ha with rfl | ha
      · exact h1
      · exact h1.trans (h.1 a ha)
    · exact List.pairwise_cons.mpr ⟨by simpa [h2] using h.1, h.2⟩
    · refine List.pairwise_cons.mpr ⟨?_, ih h.2⟩
      intro a ha
      obtain ⟨d, hd, rfl⟩ := List.mem_map.mp ha
      rcases mem_cellWrite hd with h3 | h3
      · show c.1 < d.1
        omega
      · exact h.1 _ (List.mem_map_of_mem h3)

/-! ## Slots -/

theorem halves_append (v : Pixel) : v.extractLsb' 8 8 ++ v.extractLsb' 0 8 = v := by
  refine BitVec.eq_of_getLsbD_eq fun i hi => ?_
  simp only [BitVec.getLsbD_append, BitVec.getLsbD_extractLsb']
  rcases Nat.lt_or_ge i 8 with h | h
  · simp [h]
  · have h8 : ¬ i < 8 := by omega
    have h9 : i - 8 < 8 := by omega
    have h10 : 8 + (i - 8) = i := by omega
    simp [h8, h9, h10]

theorem low_of_append (u l : Byte) : (u ++ l : BitVec 16).extractLsb' 0 8 = l := by
  apply BitVec.eq_of_toNat_eq
  simp only [extract_toNat, toNat_append_add]
  omega

theorem high_of_append (u l : Byte) : (u ++ l : BitVec 16).extractLsb' 8 8 = u := by
  apply BitVec.eq_of_toNat_eq
  simp only [extract_toNat, toNat_append_add]
  omega

/-- Two regions that agree on a slot agree on its bytes. -/
theorem byte_eq_of_memRead_eq {m n : Memory} {k : Nat} (h : memRead m (k / 2) = memRead n (k / 2)) :
    m.byte k = n.byte k := by
  have hl := congrArg (fun v => v.extractLsb' 0 8) h
  have hu := congrArg (fun v => v.extractLsb' 8 8) h
  simp only [memRead, low_of_append, high_of_append] at hl hu
  rcases Nat.mod_two_eq_zero_or_one k with h2 | h2
  · rwa [show 2 * (k / 2) = k by omega] at hl
  · rwa [show 2 * (k / 2) + 1 = k by omega] at hu

@[simp] theorem memWrite_epoch (m : Memory) (i : Nat) (v : Pixel) : (memWrite m i v).epoch = m.epoch := rfl

/-- A write of slot `i` leaves every byte outside that slot alone. -/
theorem byte_memWrite_other {i k : Nat} (h : k ≠ 2 * i ∧ k ≠ 2 * i + 1) (m : Memory) (v : Pixel) :
    (memWrite m i v).byte k = m.byte k := by
  simp [Memory.byte, memWrite, cellRead_cellWrite_other h.1, cellRead_cellWrite_other h.2]

theorem memRead_memWrite_self (m : Memory) (i : Nat) (v : Pixel) : memRead (memWrite m i v) i = v := by
  have h : (2 * i : Nat) ≠ 2 * i + 1 := by omega
  simp [memRead, Memory.byte, memWrite, cellRead_cellWrite_self, cellRead_cellWrite_other h, halves_append]

theorem memRead_memWrite_other {i j : Nat} (h : j ≠ i) (m : Memory) (v : Pixel) :
    memRead (memWrite m i v) j = memRead m j := by
  simp only [memRead]
  rw [byte_memWrite_other (by omega), byte_memWrite_other (by omega)]

/-- What any slot reads as after a write. -/
theorem memRead_memWrite (m : Memory) (i j : Nat) (v : Pixel) :
    memRead (memWrite m i v) j = if j = i then v else memRead m j := by
  split_ifs with h
  · rw [h, memRead_memWrite_self]
  · exact memRead_memWrite_other h m v

/-- A write inside the region keeps the canonical form. -/
theorem memWrite_wf {m : Memory} (h : m.wf) {i : Nat} (hi : i < Config.fbSlots) (v : Pixel) : (memWrite m i v).wf := by
  refine ⟨cellWrite_rising _ _ (cellWrite_rising _ _ h.1), ?_⟩
  intro c hc
  rcases mem_cellWrite hc with h1 | h1
  · omega
  · rcases mem_cellWrite h1 with h2 | h2
    · omega
    · exact h.2 c h2

/-- A memory with nothing listed has the canonical form. -/
theorem empty_wf (n : Nat) : Memory.wf ⟨n, []⟩ := by simp [Memory.wf]

end Sys2Proof.Machine
end

