-- ==== Sys2Proof/Laws/PerInstr.lean ====
section
/-! SUPPORT. Statements made of every instruction, one lemma per constructor of `Instr`. RoundTrip: a well-formed
instruction's word decodes to it (spec/30_encoding.md R91, R100). -/

namespace Sys2Proof.Laws.RoundTrip

/-- Decoding the word of a well-formed instruction gives the instruction back. -/
def Statement (i : Instr) : Prop := i.wellFormed = true → decode (encode i) = .ok i

theorem cdec (p : Pixel) : Statement (.cdec p) := by
  intro _
  simp only [decode, encode, opCode, opField_word, fieldA_word, fieldB_word, fieldC_word]
  exact accept_word (by simp [zeroBC])

theorem cenc (r g b : BitVec 8) : Statement (.cenc r g b) := by
  intro _
  have hr : (g ++ r : BitVec 16).extractLsb' 0 8 = r := by
    apply BitVec.eq_of_toNat_eq; simp only [extract_toNat, toNat_append_add]; omega
  have hg : (g ++ r : BitVec 16).extractLsb' 8 8 = g := by
    apply BitVec.eq_of_toNat_eq; simp only [extract_toNat, toNat_append_add]; omega
  have hb : (0#8 ++ b : BitVec 16).extractLsb' 0 8 = b := by
    apply BitVec.eq_of_toNat_eq; simp only [extract_toNat, toNat_append_add]; omega
  have hz : (0#8 ++ b : BitVec 16).extractLsb' 8 8 = 0 := by
    apply BitVec.eq_of_toNat_eq
    simp only [extract_toNat, toNat_append_add, BitVec.ofNat_eq_ofNat, BitVec.toNat_ofNat]
    omega
  simp only [decode, encode, opCode, opField_word, fieldA_word, fieldB_word, fieldC_word, hr, hg, hb, hz]
  exact accept_word (by simp)

theorem cx5 (v : Operand) : Statement (.cx5 v) := by
  intro h
  have hz : v.extractLsb' 5 11 = 0 := by
    apply BitVec.eq_of_toNat_eq
    simp only [Instr.wellFormed, decide_eq_true_eq] at h
    simp only [extract_toNat, BitVec.ofNat_eq_ofNat, BitVec.toNat_ofNat]
    omega
  simp only [decode, encode, opCode, opField_word, fieldA_word, fieldB_word, fieldC_word]
  exact accept_word (by simp [zeroBC, hz])

theorem cx6 (v : Operand) : Statement (.cx6 v) := by
  intro h
  have hz : v.extractLsb' 6 10 = 0 := by
    apply BitVec.eq_of_toNat_eq
    simp only [Instr.wellFormed, decide_eq_true_eq] at h
    simp only [extract_toNat, BitVec.ofNat_eq_ofNat, BitVec.toNat_ofNat]
    omega
  simp only [decode, encode, opCode, opField_word, fieldA_word, fieldB_word, fieldC_word]
  exact accept_word (by simp [zeroBC, hz])

theorem fget (x y : Operand) : Statement (.fget x y) := by
  intro _
  simp only [decode, encode, opCode, opField_word, fieldA_word, fieldB_word, fieldC_word]
  exact accept_word (by simp)

theorem fset (x y : Operand) (p : Pixel) : Statement (.fset x y p) := by
  intro _
  simp only [decode, encode, opCode, opField_word, fieldA_word, fieldB_word, fieldC_word]
  exact accept_word (by simp)

theorem fsetc (x y : Operand) (p : Pixel) : Statement (.fsetc x y p) := by
  intro _
  simp only [decode, encode, opCode, opField_word, fieldA_word, fieldB_word, fieldC_word]
  exact accept_word (by simp)

theorem fwid : Statement .fwid := by
  intro _
  simp only [decode, encode, opCode, opField_word, fieldA_word, fieldB_word, fieldC_word]
  exact accept_word (by simp [zeroABC])

theorem fhgt : Statement .fhgt := by
  intro _
  simp only [decode, encode, opCode, opField_word, fieldA_word, fieldB_word, fieldC_word]
  exact accept_word (by simp [zeroABC])

theorem fstr : Statement .fstr := by
  intro _
  simp only [decode, encode, opCode, opField_word, fieldA_word, fieldB_word, fieldC_word]
  exact accept_word (by simp [zeroABC])

theorem xmir : Statement .xmir := by
  intro _
  simp only [decode, encode, opCode, opField_word, fieldA_word, fieldB_word, fieldC_word]
  exact accept_word (by simp [zeroABC])

theorem xgry : Statement .xgry := by
  intro _
  simp only [decode, encode, opCode, opField_word, fieldA_word, fieldB_word, fieldC_word]
  exact accept_word (by simp [zeroABC])

theorem xinv : Statement .xinv := by
  intro _
  simp only [decode, encode, opCode, opField_word, fieldA_word, fieldB_word, fieldC_word]
  exact accept_word (by simp [zeroABC])

theorem stat (sel : Bool) : Statement (.stat sel) := by
  intro _
  simp only [decode, encode, opCode, opField_word, fieldA_word]
  cases sel
  · exact accept_word (by simp [zeroBC])
  · exact accept_word (by simp [zeroBC])

end Sys2Proof.Laws.RoundTrip
end

