-- ==== Sys2Proof/Laws/Transform.lean ====
section
/-! SUPPORT. What the three whole-frame walks do to any slot, at any geometry whose stride is at least its width. -/

namespace Sys2Proof.Machine

/-! ## Slots of distinct coordinates -/

theorem slotIndex_inj {g : Geometry} {x y x' y' : Nat} (hx : x < g.stride) (hx' : x' < g.stride)
    (h : slotIndex g x y = slotIndex g x' y') : x = x' ∧ y = y' := by
  simp only [slotIndex] at h
  have h1 : (y * g.stride + x) % g.stride = x := by rw [Nat.mul_comm, Nat.mul_add_mod, Nat.mod_eq_of_lt hx]
  have h2 : (y' * g.stride + x') % g.stride = x' := by rw [Nat.mul_comm, Nat.mul_add_mod, Nat.mod_eq_of_lt hx']
  have h3 : (y * g.stride + x) / g.stride = y := by
    rw [Nat.mul_comm, Nat.mul_add_div (by omega), Nat.div_eq_of_lt hx, Nat.add_zero]
  have h4 : (y' * g.stride + x') / g.stride = y' := by
    rw [Nat.mul_comm, Nat.mul_add_div (by omega), Nat.div_eq_of_lt hx', Nat.add_zero]
  exact ⟨by rw [← h1, ← h2, h], by rw [← h3, ← h4, h]⟩

theorem mem_rowMajor {n height x y : Nat} : (x, y) ∈ rowMajor n height ↔ x < n ∧ y < height := by
  simp [rowMajor]; tauto

theorem rowMajor_nodup (n height : Nat) : (rowMajor n height).Nodup := by
  unfold rowMajor
  rw [List.nodup_flatMap]
  refine ⟨fun y _ => List.nodup_range.map fun a b h => by simpa using h, List.nodup_range.imp fun {a b} hab => ?_⟩
  simp only [Function.onFun, List.disjoint_left, List.mem_map]
  rintro _ ⟨x, _, rfl⟩ ⟨x', _, h⟩
  exact hab (Prod.ext_iff.mp h).2.symm

theorem rowMajor_length (n height : Nat) : (rowMajor n height).length = n * height := by
  simp [rowMajor, List.length_flatMap, Nat.mul_comm]

/-- A walk that rewrites each pixel once: the slots of the listed coordinates are mapped, all others kept. -/
theorem memRead_mapWalk (g : Geometry) (f : Pixel → Pixel) (l : List (Nat × Nat)) (hl : l.Nodup)
    (hx : ∀ c ∈ l, c.1 < g.stride) (m : Memory) (j : Nat) :
    memRead (l.foldl (mapAt g f) m) j
      = if ∃ c ∈ l, slotIndex g c.1 c.2 = j then f (memRead m j) else memRead m j := by
  induction l generalizing m with
  | nil => simp
  | cons c rest ih =>
    rw [List.foldl_cons, ih hl.of_cons (fun d hd => hx d (List.mem_cons_of_mem _ hd))]
    have hc : c ∉ rest := (List.nodup_cons.mp hl).1
    have hread : memRead (mapAt g f m c) j = if j = slotIndex g c.1 c.2 then f (memRead m j) else memRead m j := by
      simp only [mapAt, memRead_memWrite]
      split_ifs with h <;> simp [h]
    by_cases hj : slotIndex g c.1 c.2 = j
    · have hnot : ¬ ∃ d ∈ rest, slotIndex g d.1 d.2 = j := by
        rintro ⟨d, hd, hdj⟩
        have := slotIndex_inj (hx d (List.mem_cons_of_mem _ hd)) (hx c List.mem_cons_self) (hdj.trans hj.symm)
        exact hc (by rwa [← Prod.ext this.1 this.2])
      rw [if_neg hnot, hread, if_pos hj.symm, if_pos ⟨c, List.mem_cons_self, hj⟩]
    · have hread' : memRead (mapAt g f m c) j = memRead m j := by rw [hread, if_neg fun h : j = _ => hj h.symm]
      rw [hread']
      simp only [List.mem_cons, exists_eq_or_imp, hj, false_or]

/-! ## The two walks over a frame -/

theorem mem_frameOrder {g : Geometry} {c : Nat × Nat} : c ∈ frameOrder g ↔ c.1 < g.width ∧ c.2 < g.height :=
  mem_rowMajor

/-- A whole-frame map: every visible pixel is mapped. -/
theorem memRead_mapFrame_visible {g : Geometry} (hg : g.width ≤ g.stride) (f : Pixel → Pixel) (m : Memory)
    {x y : Nat} (hx : x < g.width) (hy : y < g.height) :
    memRead ((frameOrder g).foldl (mapAt g f) m) (slotIndex g x y) = f (memRead m (slotIndex g x y)) := by
  rw [memRead_mapWalk g f (frameOrder g) (rowMajor_nodup _ _) (fun c hc => (mem_frameOrder.mp hc).1.trans_le hg),
    if_pos ⟨(x, y), mem_frameOrder.mpr ⟨hx, hy⟩, rfl⟩]

/-- A whole-frame map: a slot that is no visible pixel keeps its value. -/
theorem memRead_mapFrame_other {g : Geometry} (hg : g.width ≤ g.stride) (f : Pixel → Pixel) (m : Memory) {j : Nat}
    (hj : ∀ x y, x < g.width → y < g.height → slotIndex g x y ≠ j) :
    memRead ((frameOrder g).foldl (mapAt g f) m) j = memRead m j := by
  rw [memRead_mapWalk g f (frameOrder g) (rowMajor_nodup _ _) (fun c hc => (mem_frameOrder.mp hc).1.trans_le hg), if_neg]
  rintro ⟨c, hc, h⟩
  exact hj c.1 c.2 (mem_frameOrder.mp hc).1 (mem_frameOrder.mp hc).2 h

theorem memRead_swapAt_other {g : Geometry} {c : Nat × Nat} {j : Nat} (h1 : slotIndex g c.1 c.2 ≠ j)
    (h2 : slotIndex g (g.width - 1 - c.1) c.2 ≠ j) (m : Memory) : memRead (swapAt g m c) j = memRead m j := by
  simp only [swapAt]
  rw [memRead_memWrite_other h2.symm, memRead_memWrite_other h1.symm]

theorem memRead_swapWalk_other {g : Geometry} {l : List (Nat × Nat)} {j : Nat}
    (h : ∀ c ∈ l, slotIndex g c.1 c.2 ≠ j ∧ slotIndex g (g.width - 1 - c.1) c.2 ≠ j) (m : Memory) :
    memRead (l.foldl (swapAt g) m) j = memRead m j := by
  induction l generalizing m with
  | nil => rfl
  | cons c rest ih =>
    have hc := h c List.mem_cons_self
    rw [List.foldl_cons, ih (fun d hd => h d (List.mem_cons_of_mem _ hd)), memRead_swapAt_other hc.1 hc.2]

/-- A walk over pairs that swaps each pair once: each of the two slots holds what the other held. -/
theorem memRead_swapWalk_pair {g : Geometry} (hg : g.width ≤ g.stride) {l : List (Nat × Nat)} (hl : l.Nodup)
    (hx : ∀ c ∈ l, c.1 < g.width / 2) (m : Memory) {c : Nat × Nat} (hc : c ∈ l) :
    memRead (l.foldl (swapAt g) m) (slotIndex g c.1 c.2) = memRead m (slotIndex g (g.width - 1 - c.1) c.2) ∧
      memRead (l.foldl (swapAt g) m) (slotIndex g (g.width - 1 - c.1) c.2) = memRead m (slotIndex g c.1 c.2) := by
  -- two different pairs share no slot
  have apart : ∀ a ∈ l, ∀ b ∈ l, a ≠ b →
      slotIndex g a.1 a.2 ≠ slotIndex g b.1 b.2 ∧
      slotIndex g (g.width - 1 - a.1) a.2 ≠ slotIndex g b.1 b.2 ∧
      slotIndex g a.1 a.2 ≠ slotIndex g (g.width - 1 - b.1) b.2 ∧
      slotIndex g (g.width - 1 - a.1) a.2 ≠ slotIndex g (g.width - 1 - b.1) b.2 := by
    intro a ha b hb hab
    have h1 := hx a ha
    have h2 := hx b hb
    refine ⟨fun h => ?_, fun h => ?_, fun h => ?_, fun h => ?_⟩
    · exact hab (Prod.ext (slotIndex_inj (by omega) (by omega) h).1 (slotIndex_inj (by omega) (by omega) h).2)
    · have := slotIndex_inj (by omega) (by omega) h; omega
    · have := slotIndex_inj (by omega) (by omega) h; omega
    · have h3 := slotIndex_inj (by omega) (by omega) h
      exact hab (Prod.ext (by omega) h3.2)
  induction l generalizing m with
  | nil => simp at hc
  | cons a rest ih =>
    have ha := hx a List.mem_cons_self
    have hne : slotIndex g a.1 a.2 ≠ slotIndex g (g.width - 1 - a.1) a.2 := fun h => by
      have := slotIndex_inj (by omega) (by omega) h; omega
    have hrest : ∀ d ∈ rest, d ≠ a := fun d hd h => (List.nodup_cons.mp hl).1 (h ▸ hd)
    rw [List.foldl_cons]
    rcases List.mem_cons.mp hc with rfl | hc
    · have out := fun d hd => apart d (List.mem_cons_of_mem _ hd) c List.mem_cons_self (hrest d hd)
      rw [memRead_swapWalk_other (fun d hd => ⟨(out d hd).1, (out d hd).2.1⟩),
        memRead_swapWalk_other (fun d hd => ⟨(out d hd).2.2.1, (out d hd).2.2.2⟩)]
      simp only [swapAt]
      exact ⟨by rw [memRead_memWrite_other hne, memRead_memWrite_self], memRead_memWrite_self _ _ _⟩
    · have h := ih hl.of_cons (fun d hd => hx d (List.mem_cons_of_mem _ hd)) (swapAt g m a) hc
        (fun p hp q hq => apart p (List.mem_cons_of_mem _ hp) q (List.mem_cons_of_mem _ hq))
      have ap := apart a List.mem_cons_self c (List.mem_cons_of_mem _ hc) (hrest c hc).symm
      rwa [memRead_swapAt_other ap.1 ap.2.1, memRead_swapAt_other ap.2.2.1 ap.2.2.2] at h

theorem mem_mirrorOrder {g : Geometry} {c : Nat × Nat} : c ∈ mirrorOrder g ↔ c.1 < g.width / 2 ∧ c.2 < g.height :=
  mem_rowMajor

/-- XMIR's walk: every visible pixel becomes the one at the mirrored column. -/
theorem memRead_mirrorFrame_visible {g : Geometry} (hg : g.width ≤ g.stride) (m : Memory) {x y : Nat}
    (hx : x < g.width) (hy : y < g.height) :
    memRead (mirrorFrame g m) (slotIndex g x y) = memRead m (slotIndex g (g.width - 1 - x) y) := by
  have pair := fun c hc => memRead_swapWalk_pair hg (rowMajor_nodup (g.width / 2) g.height)
    (fun c hc => (mem_mirrorOrder.mp hc).1) m (c := c) hc
  rcases Nat.lt_or_ge x (g.width / 2) with h | h
  · exact (pair (x, y) (mem_mirrorOrder.mpr ⟨h, hy⟩)).1
  · rcases Nat.lt_or_ge (g.width - 1 - x) (g.width / 2) with h2 | h2
    · have h3 := (pair (g.width - 1 - x, y) (mem_mirrorOrder.mpr ⟨h2, hy⟩)).2
      rwa [show g.width - 1 - (g.width - 1 - x) = x by omega] at h3
    · rw [show g.width - 1 - x = x by omega]
      refine memRead_swapWalk_other (fun c hc => ?_) m
      have hc := mem_mirrorOrder.mp hc
      constructor <;> intro h4 <;> have := slotIndex_inj (by omega) (by omega) h4 <;> omega

/-- XMIR's walk: a slot that is no visible pixel keeps its value. -/
theorem memRead_mirrorFrame_other {g : Geometry} (m : Memory) {j : Nat}
    (hj : ∀ x y, x < g.width → y < g.height → slotIndex g x y ≠ j) : memRead (mirrorFrame g m) j = memRead m j := by
  refine memRead_swapWalk_other (fun c hc => ?_) m
  have hc := mem_mirrorOrder.mp hc
  exact ⟨hj _ _ (by omega) hc.2, hj _ _ (by omega) hc.2⟩

/-! ## The canonical form -/

/-- Every pixel of the frame lies inside the region (spec/20_memory.md R51). -/
theorem slotIndex_lt_fbSlots {x y : Nat} (hx : x < 512) (hy : y < 240) :
    slotIndex Config.geometry x y < Config.fbSlots := by
  simp only [slotIndex, Config.geometry, Config.fbSlots]
  omega

theorem mapFrame_wf (f : Pixel → Pixel) {m : Memory} (h : m.wf) :
    ((frameOrder Config.geometry).foldl (mapAt Config.geometry f) m).wf := by
  refine List.foldlRecOn _ _ h fun m hm c hc => memWrite_wf hm (slotIndex_lt_fbSlots ?_ (mem_frameOrder.mp hc).2) _
  exact (mem_frameOrder.mp hc).1.trans (by decide)

theorem mirrorFrame_wf {m : Memory} (h : m.wf) : (mirrorFrame Config.geometry m).wf := by
  refine List.foldlRecOn _ _ h fun m hm c hc => ?_
  have hc := mem_mirrorOrder.mp hc
  have hw : Config.geometry.width = 320 := rfl
  have hh : Config.geometry.height = 240 := rfl
  exact memWrite_wf (memWrite_wf hm (slotIndex_lt_fbSlots (by omega) (by omega)) _)
    (slotIndex_lt_fbSlots (by omega) (by omega)) _

end Sys2Proof.Machine
end

