-- ==== Sys2Proof/Laws/Step.lean ====
section
/-! SUPPORT. Everything a step can do, said once: what an operation answers, what a request answers, what a transform
dispatched by the controller answers, and what a poll answers. -/

namespace Sys2Proof.Machine

/-! ## Operations and requests -/

/-- What an operation can do to the state: respond; respond OK with new frame contents that keep the canonical form;
or raise one fault. -/
inductive Served (s : State) : State → Prop
  | responds (status : Code) (rdata : BitVec 32) : Served s (s.respond status rdata)
  | writes (m : Memory) (h : s.fb.wf → m.wf) : Served s ((s.withFrame m).respond statusOk 0)
  | faults (code : FaultCode) (op : Code) (a b : Operand) : Served s (s.raiseFault code op a b)

theorem inBounds_geometry {x y : Int} (h : inBounds Config.geometry x y = true) : x.toNat < 320 ∧ y.toNat < 240 := by
  have hw : ((Config.geometry.width : Nat) : Int) = 320 := rfl
  have hh : ((Config.geometry.height : Nat) : Int) = 240 := rfl
  simp only [inBounds, decide_eq_true_eq] at h
  omega

theorem transform_served (op : Code) (run : Memory → Memory) (hrun : ∀ m : Memory, m.wf → (run m).wf) (s : State) :
    Served s (transform op run s) := by
  unfold transform
  split_ifs
  · exact .writes _ (hrun s.fb)
  · exact .faults ..

/-- Every operation answers a next state, and it is one of the three kinds. -/
theorem exec_served (i : Instr) (s : State) : ∃ t, exec i s = .next t ∧ Served s t := by
  cases i with
  | cdec p => exact ⟨_, rfl, .responds ..⟩
  | cenc r g b => exact ⟨_, rfl, .responds ..⟩
  | cx5 v => by_cases h : v.toNat < 32 <;> simp only [exec, execCx5, h, if_true, if_false]
             · exact ⟨_, rfl, .responds ..⟩
             · exact ⟨_, rfl, .faults ..⟩
  | cx6 v => by_cases h : v.toNat < 64 <;> simp only [exec, execCx6, h, if_true, if_false]
             · exact ⟨_, rfl, .responds ..⟩
             · exact ⟨_, rfl, .faults ..⟩
  | fget x y =>
    cases h : inBounds Config.geometry (sint16 x) (sint16 y) <;> simp only [exec, execFget, getPixel, h]
    · exact ⟨_, rfl, .faults ..⟩
    · exact ⟨_, rfl, .responds ..⟩
  | fset x y p =>
    cases h : inBounds Config.geometry (sint16 x) (sint16 y) <;> simp only [exec, execFset, setPixel, h]
    · exact ⟨_, rfl, .faults ..⟩
    · have hb := inBounds_geometry h
      exact ⟨_, rfl, .writes _ fun hw => memWrite_wf hw (slotIndex_lt_fbSlots (by omega) hb.2) _⟩
  | fsetc x y p =>
    refine ⟨_, rfl, .writes _ fun hw => ?_⟩
    unfold setClip
    split_ifs with h
    · have hb := inBounds_geometry h
      exact memWrite_wf hw (slotIndex_lt_fbSlots (by omega) hb.2) _
    · exact hw
  | fwid => exact ⟨_, rfl, .responds ..⟩
  | fhgt => exact ⟨_, rfl, .responds ..⟩
  | fstr => exact ⟨_, rfl, .responds ..⟩
  | xmir =>
    have hw : ∀ m : Memory, m.wf → (mirrorFrame Config.geometry m).wf := fun _ h => mirrorFrame_wf h
    exact ⟨transform 0xB (mirrorFrame Config.geometry) s, rfl, transform_served 0xB (mirrorFrame Config.geometry) hw s⟩
  | xgry =>
    have hw : ∀ m : Memory, m.wf → (grayFrame Config.geometry m).wf := fun _ h => mapFrame_wf _ h
    exact ⟨transform 0xC (grayFrame Config.geometry) s, rfl, transform_served 0xC (grayFrame Config.geometry) hw s⟩
  | xinv =>
    have hw : ∀ m : Memory, m.wf → (invertFrame Config.geometry m).wf := fun _ h => mapFrame_wf _ h
    exact ⟨transform 0xD (invertFrame Config.geometry) s, rfl, transform_served 0xD (invertFrame Config.geometry) hw s⟩
  | stat sel => exact ⟨_, rfl, .responds ..⟩

/-- Every accepted request answers a next state of one of the three kinds. -/
theorem issue_served (who : Requester) (q : Request) (s : State) : ∃ t, issue who q s = .next t ∧ Served s t := by
  unfold issue
  split
  · exact ⟨_, rfl, .faults ..⟩
  · split_ifs
    · exact ⟨_, rfl, .faults ..⟩
    · exact exec_served _ _

/-- A request at the service port is either not accepted and changes nothing, or is served. -/
theorem serveRequest_cases (q : Request) (s : State) :
    (s.ctl = .halted ∧ serveRequest q s = .next s) ∨ ∃ t, serveRequest q s = .next t ∧ Served s t := by
  unfold serveRequest
  split_ifs with h
  · exact .inl ⟨h.1, rfl⟩
  · exact .inr (issue_served ..)

theorem inBounds_iff_visibleSlot {p : Int × Int} : visibleSlot p = none ↔ inBounds Config.geometry p.1 p.2 = false := by
  unfold visibleSlot
  split_ifs with h <;> simp [h]

theorem exec_frame {i : Instr} {s t : State} (h : exec i s = .next t) (hs : ∀ x y p, i ≠ .fset x y p)
    (hx : i = .xmir ∨ i = .xgry ∨ i = .xinv → s.ctl ≠ .editSelect)
    (hc : ∀ x y p, i = .fsetc x y p → visibleSlot (sint16 x, sint16 y) = none) : t.fb = s.fb := by
  have guard : ∀ op run, s.ctl ≠ .editSelect → (transform op run s).fb = s.fb := by
    intro op run hn
    rw [transform, if_neg hn, State.raiseFault_fb]
  cases i with
  | cdec p => cases h; rfl
  | cenc r g b => cases h; rfl
  | cx5 v =>
    simp only [exec, execCx5] at h
    split_ifs at h <;> cases h
    · rfl
    · exact State.raiseFault_fb ..
  | cx6 v =>
    simp only [exec, execCx6] at h
    split_ifs at h <;> cases h
    · rfl
    · exact State.raiseFault_fb ..
  | fget x y =>
    simp only [exec, execFget] at h
    split at h <;> cases h
    · rfl
    · exact State.raiseFault_fb ..
  | fset x y p => exact absurd rfl (hs x y p)
  | fsetc x y p =>
    cases h
    have hb : inBounds Config.geometry (sint16 x) (sint16 y) = false := inBounds_iff_visibleSlot.mp (hc x y p rfl)
    simp [setClip, hb]
  | fwid => cases h; rfl
  | fhgt => cases h; rfl
  | fstr => cases h; rfl
  | xmir =>
    have e : transform 0xB (mirrorFrame Config.geometry) s = t := Host.Outcome.next.inj h
    rw [← e]
    exact guard 0xB (mirrorFrame Config.geometry) (hx (.inl rfl))
  | xgry =>
    have e : transform 0xC (grayFrame Config.geometry) s = t := Host.Outcome.next.inj h
    rw [← e]
    exact guard 0xC (grayFrame Config.geometry) (hx (.inr (.inl rfl)))
  | xinv =>
    have e : transform 0xD (invertFrame Config.geometry) s = t := Host.Outcome.next.inj h
    rw [← e]
    exact guard 0xD (invertFrame Config.geometry) (hx (.inr (.inr rfl)))
  | stat sel => cases h; rfl

/-- A request at the service port that is no FSET, and no FSETC on a visible pixel, leaves the framebuffer alone. -/
theorem serveRequest_frame {q : Request} {s t : State} (h : serveRequest q s = .next t)
    (hs : ∀ x y p, decode q ≠ .ok (.fset x y p))
    (hc : ∀ x y p, decode q = .ok (.fsetc x y p) → visibleSlot (sint16 x, sint16 y) = none) : t.fb = s.fb := by
  unfold serveRequest at h
  split_ifs at h
  · cases h; rfl
  unfold issue at h
  split at h
  · cases h; exact State.raiseFault_fb ..
  · next i hd =>
    split_ifs at h with hr
    · cases h; exact State.raiseFault_fb ..
    · refine exec_frame h (fun x y p e => hs x y p (e ▸ hd)) (fun hx => ?_) (fun x y p e => hc x y p (e ▸ hd))
      exact absurd ⟨rfl, by rcases hx with rfl | rfl | rfl <;> rfl⟩ hr

/-- Outside HALTED a word that decodes to an FSETC runs it. -/
theorem serveRequest_fsetc {q : Request} {s : State} {x y : Operand} {p : Pixel} (hd : decode q = .ok (.fsetc x y p))
    (hc : s.ctl ≠ .halted) :
    serveRequest q s
      = .next ((s.withFrame (setClip Config.geometry s.fb (sint16 x) (sint16 y) p)).respond statusOk 0) := by
  simp [serveRequest, hc, issue, hd, controllerOnly, exec, execFsetc]

/-! ## One pixel drawn -/

@[simp] theorem State.markInked_ctl (s : State) (j : Nat) : (s.markInked j).ctl = s.ctl := rfl
@[simp] theorem State.markInked_dbw (s : State) (j : Nat) : (s.markInked j).dbw = s.dbw := rfl
@[simp] theorem State.markInked_ovl (s : State) (j : Nat) : (s.markInked j).ovl = s.ovl := rfl
@[simp] theorem State.markInked_ovlDone (s : State) (j : Nat) : (s.markInked j).ovlDone = s.ovlDone := rfl
@[simp] theorem State.markInked_cnt (s : State) (j : Nat) : (s.markInked j).cnt = s.cnt := rfl
@[simp] theorem State.markInked_fltCause (s : State) (j : Nat) : (s.markInked j).fltCause = s.fltCause := rfl
@[simp] theorem State.markInked_fltOp (s : State) (j : Nat) : (s.markInked j).fltOp = s.fltOp := rfl
@[simp] theorem State.markInked_fltX (s : State) (j : Nat) : (s.markInked j).fltX = s.fltX := rfl
@[simp] theorem State.markInked_fltY (s : State) (j : Nat) : (s.markInked j).fltY = s.fltY := rfl
@[simp] theorem State.markInked_hist (s : State) (j : Nat) : (s.markInked j).hist = s.hist := rfl
@[simp] theorem State.markInked_fb (s : State) (j : Nat) : (s.markInked j).fb = s.fb := rfl
@[simp] theorem State.markInked_vctl (s : State) (j : Nat) : (s.markInked j).vctl = s.vctl := rfl
@[simp] theorem State.markInked_resp (s : State) (j : Nat) : (s.markInked j).resp = s.resp := rfl
@[simp] theorem State.markInked_moves (s : State) (j : Nat) : (s.markInked j).moves = s.moves := rfl
@[simp] theorem State.markInked_draws (s : State) (j : Nat) : (s.markInked j).draws = s.draws := rfl
@[simp] theorem State.markInked_renderer (s : State) (j : Nat) : (s.markInked j).renderer = s.renderer := rfl
@[simp] theorem State.markInked_ovlTime (s : State) (j : Nat) : (s.markInked j).ovlTime = s.ovlTime := rfl

/-- The slots drawn after one more. -/
@[simp] theorem State.mem_markInked_inked {s : State} {slot j : Nat} :
    j ∈ (s.markInked slot).inked ↔ j = slot ∨ j ∈ s.inked := by
  unfold State.markInked
  by_cases h : slot ∈ s.inked <;> simp only [h, if_true, if_false, List.mem_cons]
  exact ⟨.inr, fun e => e.elim (· ▸ h) id⟩

/-! ## The controller -/

/-- A transform on the controller's path in EDIT_SELECT never faults: the frame is transformed and the debounce wait
starts. -/
theorem runTransform_editSelect {s : State} (h : s.ctl = .editSelect) (op : Code) (run : Memory → Memory) {i : Instr}
    (hd : decode (encode i) = .ok i) (hx : exec i s = .next (transform op run s)) (wait : BitVec 4) :
    runTransform i wait s = .next { s with fb := run s.fb, resp := none, dbw := wait } := by
  simp [runTransform, issue, hd, hx, transform, h, afterTransform]

/-- What a poll step can do (spec/43_capture_controller.md R192). -/
inductive Polled (s : State) : State → Prop
  /-- Nothing changes. -/
  | stays : Polled s s
  /-- The debounce wait ends (R194). -/
  | released : s.ctl ≠ .halted → Polled s { s with dbw := 0 }
  /-- STREAMING to CAPTURING (R195). -/
  | captures : s.ctl = .streaming → s.dbw = 0 →
      Polled s { s.vctlWrite Config.vctlDisable with ctl := .capturing, dbw := 0x1 }
  /-- The counter is incremented and the overlay requested (R196). -/
  | requests (time : TimeOfDay) : s.ctl = .capturing → s.dbw = 0 → s.ovl = false →
      Polled s { s.record (.ovlReq (wrapInc s.cnt) time) with
        cnt := wrapInc s.cnt, ovl := true, ovlDone := false, ovlTime := time, inked := [] }
  /-- The overlay is done (R196). -/
  | overlaid : s.ctl = .capturing → s.dbw = 0 → s.ovl = true → s.ovlDone = true →
      Polled s { s with ovl := false, ovlDone := false, ctl := .frozenOverlaid }
  /-- FROZEN_OVERLAID to EDIT_SELECT (R201). -/
  | opens : s.ctl = .frozenOverlaid → s.dbw = 0 → Polled s { s with ctl := .editSelect }
  /-- EDIT_SELECT to STREAMING (R198). -/
  | rearms : s.ctl = .editSelect → s.dbw = 0 →
      Polled s { s.vctlWrite Config.vctlEnable with ctl := .streaming, dbw := 0x1 }
  /-- A transform, then its debounce wait (R198). -/
  | transforms (m : Memory) (wait : BitVec 4) : s.ctl = .editSelect → s.dbw = 0 → (s.fb.wf → m.wf) →
      wait = 0x2 ∨ wait = 0x4 ∨ wait = 0x8 → Polled s { s with fb := m, resp := none, dbw := wait }

/-- Every poll step answers a next state, and it is one of these. -/
theorem pollStep_polled (btn : BitVec 32) (time : TimeOfDay) (s : State) :
    ∃ t, pollStep btn time s = .next t ∧ Polled s t := by
  unfold pollStep
  by_cases hh : s.ctl = .halted
  · exact ⟨s, by simp [hh], .stays⟩
  rw [if_neg hh]
  by_cases hd : s.dbw = 0
  · rw [if_neg (not_not.mpr hd)]
    cases hc : s.ctl with
    | streaming =>
      refine ⟨_, rfl, ?_⟩
      unfold stepStreaming
      split_ifs
      · exact .captures hc hd
      · exact .stays
    | capturing =>
      refine ⟨_, rfl, ?_⟩
      unfold stepCapturing
      split_ifs with h1 h2
      · exact .requests time hc hd h1
      · exact .overlaid hc hd (by simpa using h1) h2
      · exact .stays
    | frozenOverlaid => exact ⟨_, rfl, .opens hc hd⟩
    | editSelect =>
      unfold stepEditSelect
      cases buttonEvent btn with
      | capture => exact ⟨_, rfl, .rearms hc hd⟩
      | mirror =>
        have hw : s.fb.wf → (mirrorFrame Config.geometry s.fb).wf := fun h => mirrorFrame_wf h
        exact ⟨_, runTransform_editSelect hc 0xB (mirrorFrame Config.geometry) (Laws.RoundTrip.xmir rfl) rfl 0x2,
          .transforms (mirrorFrame Config.geometry s.fb) 0x2 hc hd hw (.inl rfl)⟩
      | grayscale =>
        have hw : s.fb.wf → (grayFrame Config.geometry s.fb).wf := fun h => mapFrame_wf _ h
        exact ⟨_, runTransform_editSelect hc 0xC (grayFrame Config.geometry) (Laws.RoundTrip.xgry rfl) rfl 0x4,
          .transforms (grayFrame Config.geometry s.fb) 0x4 hc hd hw (.inr (.inl rfl))⟩
      | invert =>
        have hw : s.fb.wf → (invertFrame Config.geometry s.fb).wf := fun h => mapFrame_wf _ h
        exact ⟨_, runTransform_editSelect hc 0xD (invertFrame Config.geometry) (Laws.RoundTrip.xinv rfl) rfl 0x8,
          .transforms (invertFrame Config.geometry s.fb) 0x8 hc hd hw (.inr (.inr rfl))⟩
      | none => exact ⟨s, rfl, .stays⟩
    | halted => exact absurd hc hh
  · rw [if_pos hd]
    refine ⟨_, rfl, ?_⟩
    unfold stepDebounce
    split_ifs
    · exact .released hh
    · exact .stays

/-! ## A step -/

/-- `s` once its next move has been taken and before that move acts. -/
def State.took (s : State) (rest : List Move) : State := { s with moves := rest, resp := none }

/-- What a step that answers next can have done, and under which move. -/
inductive Stepped (s : State) : State → Prop
  /-- A request of the host was served, or one of the renderer that writes no visible pixel. -/
  | served (q : Request) (rest : List Move) (t : State) :
      s.moves = .request q :: rest ∨ (s.moves = .renderer q :: rest ∧ s.ovl = true ∧ s.ovlDone = false ∧
        (∀ x y p, decode q ≠ .ok (.fset x y p)) ∧
        ∀ x y p, decode q = .ok (.fsetc x y p) → visibleSlot (sint16 x, sint16 y) = none) →
      serveRequest q (s.took rest) = .next t → Served (s.took rest) t → Stepped s t
  /-- The renderer drew a pixel of the overlay. -/
  | drew (q : Request) (x y : Operand) (slot : Nat) (rest : List Move) (t : State) : s.moves = .renderer q :: rest →
      s.ovl = true → s.ovlDone = false → decode q = .ok (.fsetc x y s.renderer.ink) →
      visibleSlot (sint16 x, sint16 y) = some slot → slot ∈ s.overlaySlots →
      serveRequest q ((s.took rest).markInked slot) = .next t →
      (s.ctl = .halted ∧ t = (s.took rest).markInked slot) ∨ Served ((s.took rest).markInked slot) t → Stepped s t
  /-- A request was not accepted, in HALTED. -/
  | ignored (q : Request) (rest : List Move) :
      s.moves = .request q :: rest ∨ s.moves = .renderer q :: rest → s.ctl = .halted → Stepped s (s.took rest)
  /-- The controller polled with listed draws. -/
  | polled (btn : BitVec 32) (time : TimeOfDay) (rest : List Move) (t : State) :
      s.moves = .poll btn time :: rest → Polled (s.took rest) t → Stepped s t
  /-- The controller polled with free draws. -/
  | polledFree (t : State) : s.moves = [] → Polled { s with draws := s.draws + 1, resp := none } t → Stepped s t
  /-- The renderer is done: every pixel of the overlay is drawn. -/
  | done (rest : List Move) : s.moves = .rendererDone :: rest → s.ovl = true → s.ovlDone = false →
      (∀ slot ∈ s.overlaySlots, slot ∈ s.inked) → Stepped s { s.took rest with ovlDone := true }
  /-- The DMA wrote a slot. -/
  | dma (slot : Fin Config.fbSlots) (v : Pixel) (rest : List Move) : s.moves = .dma slot v :: rest →
      s.vctl = Config.vctlEnable → Stepped s { s.took rest with fb := memWrite s.fb slot v }
  /-- The scan-out read a slot. -/
  | scanned (slot : Fin Config.fbSlots) (rest : List Move) : s.moves = .scanOut slot :: rest → Stepped s (s.took rest)
  /-- The block was reset. -/
  | reset (rest : List Move) : s.moves = .reset :: rest → Stepped s (resetBlock (s.took rest))

theorem step_cons {s : State} {m : Move} {rest : List Move} (h : s.moves = m :: rest) :
    step s = runMove m (s.took rest) := by
  unfold step
  rw [h]
  rfl

theorem step_nil {s : State} (h : s.moves = []) :
    step s = pollStep (Config.freeButtons s.draws) (Config.freeTime s.draws)
      { s with draws := s.draws + 1, resp := none } := by
  cases s
  cases h
  rfl

/-- Every step that answers next is one of these. -/
theorem step_stepped {s t : State} (h : step s = .next t) : Stepped s t := by
  have serve : ∀ (q : Request) (rest : List Move),
      s.moves = .request q :: rest ∨ (s.moves = .renderer q :: rest ∧ s.ovl = true ∧ s.ovlDone = false ∧
        (∀ x y p, decode q ≠ .ok (.fset x y p)) ∧
        ∀ x y p, decode q = .ok (.fsetc x y p) → visibleSlot (sint16 x, sint16 y) = none) →
      serveRequest q (s.took rest) = .next t → Stepped s t := by
    intro q rest hm hs
    rcases serveRequest_cases q (s.took rest) with ⟨hc, e⟩ | ⟨u, e, hu⟩ <;> rw [hs] at e <;> cases e
    · exact .ignored q rest (hm.imp id And.left) hc
    · exact .served q rest t hm hs hu
  rcases hm : s.moves with _ | ⟨m, rest⟩
  · obtain ⟨u, e, hu⟩ := pollStep_polled (Config.freeButtons s.draws) (Config.freeTime s.draws)
      { s with draws := s.draws + 1, resp := none }
    rw [step_nil hm] at h
    cases h.symm.trans e
    exact .polledFree t hm hu
  · rw [step_cons hm] at h
    cases m with
    | poll btn time =>
      obtain ⟨u, e, hu⟩ := pollStep_polled btn time (s.took rest)
      cases h.symm.trans e
      exact .polled btn time rest t hm hu
    | request q => exact serve q rest (.inl hm) h
    | renderer q =>
      change rendererRequest q (s.took rest) = .next t at h
      unfold rendererRequest at h
      split_ifs at h with hw
      simp only [inOverlayWindow, Bool.not_eq_false, Bool.and_eq_true, Bool.not_eq_true'] at hw
      split at h
      · cases h
      · next x y p hd =>
        unfold rendererDraw at h
        split at h
        · next hv =>
          refine serve q rest (.inr ⟨hm, hw.1, hw.2, by simp [hd], fun x' y' p' e => ?_⟩) h
          cases hd.symm.trans e
          exact hv
        · next slot hv =>
          split_ifs at h with hp
          have hd' : decode q = .ok (.fsetc x y s.renderer.ink) := hd.trans (by rw [hp.1]; rfl)
          refine .drew q x y slot rest t hm hw.1 hw.2 hd' hv hp.2 h ?_
          rcases serveRequest_cases q ((s.took rest).markInked slot) with ⟨hc, e⟩ | ⟨u, e, hu⟩ <;>
            cases h.symm.trans e
          · exact .inl ⟨hc, rfl⟩
          · exact .inr hu
      · next hf hc => exact serve q rest (.inr ⟨hm, hw.1, hw.2, hf, fun x y p e => absurd e (hc x y p)⟩) h
    | rendererDone =>
      change rendererDone (s.took rest) = .next t at h
      unfold rendererDone at h
      split_ifs at h with hw ha
      simp only [inOverlayWindow, Bool.not_eq_false, Bool.and_eq_true, Bool.not_eq_true'] at hw
      cases h
      exact .done rest hm hw.1 hw.2 ha
    | dma slot v =>
      change dmaWrite slot v (s.took rest) = .next t at h
      unfold dmaWrite at h
      split_ifs at h with hw
      cases h
      exact .dma slot v rest hm hw
    | scanOut slot =>
      cases h
      exact .scanned slot rest hm
    | reset =>
      cases h
      exact .reset rest hm

end Sys2Proof.Machine
end

