-- ==== Sys2Proof/Laws/Safety.lean ====
section
/-! SUPPORT. How each reading of the history changes with one more event, and what a served request leaves of the
controller. -/

namespace Sys2Proof.Safety

open Sys2Proof.Machine

/-! ## One more event -/

@[simp] theorem vctlWrites_append_vctl (h : List Event) (v : BitVec 32) :
    vctlWrites (h ++ [.vctl v]) = vctlWrites h ++ [v] := by simp [vctlWrites]
@[simp] theorem vctlWrites_append_ovlReq (h : List Event) (c : BitVec 16) (t : TimeOfDay) :
    vctlWrites (h ++ [.ovlReq c t]) = vctlWrites h := by simp [vctlWrites]
@[simp] theorem vctlWrites_append_fault (h : List Event) (c o : Code) (a b : Operand) :
    vctlWrites (h ++ [.fault c o a b]) = vctlWrites h := by simp [vctlWrites]

@[simp] theorem overlayRequests_append_vctl (h : List Event) (v : BitVec 32) :
    overlayRequests (h ++ [.vctl v]) = overlayRequests h := by simp [overlayRequests]
@[simp] theorem overlayRequests_append_ovlReq (h : List Event) (c : BitVec 16) (t : TimeOfDay) :
    overlayRequests (h ++ [.ovlReq c t]) = overlayRequests h + 1 := by simp [overlayRequests]
@[simp] theorem overlayRequests_append_fault (h : List Event) (c o : Code) (a b : Operand) :
    overlayRequests (h ++ [.fault c o a b]) = overlayRequests h := by simp [overlayRequests]

@[simp] theorem faults_append_vctl (h : List Event) (v : BitVec 32) : faults (h ++ [.vctl v]) = faults h := by
  simp [faults]
@[simp] theorem faults_append_ovlReq (h : List Event) (c : BitVec 16) (t : TimeOfDay) :
    faults (h ++ [.ovlReq c t]) = faults h := by simp [faults]
@[simp] theorem faults_append_fault (h : List Event) (c o : Code) (a b : Operand) :
    faults (h ++ [.fault c o a b]) = faults h ++ [(c, o, a, b)] := by simp [faults]

/-! ## Runs -/

theorem run_zero (s : State) : Sys2Proof.core.run 0 s = .next s := Host.Core.run.eq_1 Sys2Proof.core s

/-- A run takes its first step. -/
theorem run_succ {k : Nat} {s t : State} (h : step s = .next t) :
    Sys2Proof.core.run (k + 1) s = Sys2Proof.core.run k t := by
  rw [Host.Core.run.eq_2 Sys2Proof.core s k, show Sys2Proof.core.step s = .next t from h]

/-- A run that ends in `next` with at least one step has a first step that answers next. -/
theorem run_succ_next {k : Nat} {s u : State} (h : Sys2Proof.core.run (k + 1) s = .next u) :
    ∃ t, step s = .next t ∧ Sys2Proof.core.run k t = .next u := by
  rw [Host.Core.run.eq_2 Sys2Proof.core s k] at h
  cases hs : Sys2Proof.core.step s <;> rw [hs] at h
  · exact ⟨_, hs, h⟩
  · cases h
  · cases h

/-! ## A served request -/

/-- A served request leaves the controller, the port and the moves alone. -/
theorem served_controller {s t : State} (h : Served s t) :
    t.ctl = s.ctl ∧ t.dbw = s.dbw ∧ t.ovl = s.ovl ∧ t.ovlDone = s.ovlDone ∧ t.cnt = s.cnt ∧ t.vctl = s.vctl ∧
      t.moves = s.moves ∧ t.draws = s.draws ∧ t.renderer = s.renderer ∧ t.ovlTime = s.ovlTime ∧ t.inked = s.inked ∧
      vctlWrites t.hist = vctlWrites s.hist ∧
      overlayRequests t.hist = overlayRequests s.hist := by
  cases h <;> simp

end Sys2Proof.Safety
end

