-- ==== Sys2Proof/Tests/Slice0.lean ====
section
/-! SUPPORT. Tests of the model on the vectors of spec/95_test_vectors.md (each expected value stands there, in the
section named), the smoke test of the well-formedness checks, and a witness for the hypotheses of every statement. -/

namespace Sys2Proof.Tests

open Sys2Proof Sys2Proof.Machine Sys2Proof.Safety Sys2Proof.Statements

/-! ## Helpers -/

/-- The state after an outcome, if there is one. -/
def nextOf (o : Host.Outcome State Fault Refusal) : Option State :=
  match o with
  | .next t => some t
  | .fault _ => none
  | .refused _ => none

/-- The response an outcome gives, if any. -/
def responseOf (o : Host.Outcome State Fault Refusal) : Option Response := (nextOf o).bind State.resp

/-- The block in a control state with a debounce wait, the stream frozen, and the given moves to come. -/
def stateAt (ctl : Ctl) (dbw : BitVec 4) (moves : List Move) : State :=
  { State.reset with ctl := ctl, dbw := dbw, vctl := 0, moves := moves }

/-- What a poll leaves of the controller: state, wait, overlay bits, counter. -/
def pollView (btn : BitVec 32) (s : State) : Option (Ctl × BitVec 4 × Bool × Bool × BitVec 16) :=
  (nextOf (pollStep btn ⟨0, 0, 0⟩ s)).map fun t => (t.ctl, t.dbw, t.ovl, t.ovlDone, t.cnt)

/-- A region in which the first slots hold the given pixels. -/
def pixels (ps : List Pixel) : Memory := ps.zipIdx.foldl (fun m p => memWrite m p.2 p.1) ⟨0, []⟩

/-! ## Well-formedness: each check refuses an ill-formed term -/

theorem test_wellFormed_cx5 : Instr.wellFormed (.cx5 31) = true ∧ Instr.wellFormed (.cx5 32) = false := by decide
theorem test_wellFormed_cx6 : Instr.wellFormed (.cx6 63) = true ∧ Instr.wellFormed (.cx6 64) = false := by decide

/-! ## Decoding, one word per operation (sections V-CDEC to V-FB, P1, and R88 for the words without operands) -/

theorem test_decode_cdec : decodeTableWord 64 0x0000000000ABCD01 = some (.cdec 0xABCD) := by decide
theorem test_decode_cenc : decodeTableWord 64 0x000000000D1E1502 = some (.cenc 21 30 13) := by decide
theorem test_decode_cx5 : decodeTableWord 64 0x0000000000001503 = some (.cx5 21) := by decide
theorem test_decode_cx6 : decodeTableWord 64 0x0000000000001E04 = some (.cx6 30) := by decide
theorem test_decode_fget : decodeTableWord 64 0x00000000EF013F05 = some (.fget 319 239) := by decide
theorem test_decode_fset : decodeTableWord 64 0x00FFFF0000FFFF06 = some (.fset 0xFFFF 0 0xFFFF) := by decide
theorem test_decode_fsetc : decodeTableWord 64 0x00FFFF0000014007 = some (.fsetc 320 0 0xFFFF) := by decide
theorem test_decode_fwid : decodeTableWord 64 0x0000000000000008 = some .fwid := by decide
theorem test_decode_fhgt : decodeTableWord 64 0x0000000000000009 = some .fhgt := by decide
theorem test_decode_fstr : decodeTableWord 64 0x000000000000000A = some .fstr := by decide
theorem test_decode_xmir : decodeTableWord 64 0x000000000000000B = some .xmir := by decide
theorem test_decode_xgry : decodeTableWord 64 0x000000000000000C = some .xgry := by decide
theorem test_decode_xinv : decodeTableWord 64 0x000000000000000D = some .xinv := by decide
theorem test_decode_stat : decodeTableWord 64 0x000000000000010E = some (.stat true) := by decide

/-- Reserved operation codes (V-FLT). -/
theorem test_decode_reserved : decodeTableWord 64 0x0 = none ∧ decodeTableWord 64 0xF = none := by decide
/-- Must-be-zero bits: Z0, Z1, and the formats' own (V-FLT, V-CENC, V-X5, V-X6, V-FB row 18). -/
theorem test_decode_mustBeZero :
    decodeTableWord 64 0xF1 = none ∧ decodeTableWord 64 0x0100000000000006 = none ∧
    decodeTableWord 64 0x0000000100000002 = none ∧ decodeTableWord 64 0x2003 = none ∧
    decodeTableWord 64 0x4004 = none ∧ decodeTableWord 64 0x0000010000019005 = none := by decide

/-! ## The pixel codec (V-CDEC, V-CENC, V-X5, V-X6) -/

theorem test_cdec : responseOf (exec (.cdec 0x1234) State.reset) = some ⟨0, 0x00141102⟩ := by decide
theorem test_cdec_red : responseOf (exec (.cdec 0xF800) State.reset) = some ⟨0, 0x0000001F⟩ := by decide
theorem test_cenc : responseOf (exec (.cenc 21 30 13) State.reset) = some ⟨0, 0xABCD⟩ := by decide
theorem test_cenc_truncates : responseOf (exec (.cenc 37 65 63) State.reset) = some ⟨0, 0x283F⟩ := by decide
theorem test_cx5 : responseOf (exec (.cx5 21) State.reset) = some ⟨0, 173⟩ := by decide
theorem test_cx5_illegal :
    (nextOf (serveRequest 0x2003 State.reset)).map (fun t => (t.resp, t.fltCause, t.fltOp, t.fltX, t.fltY)) =
      some (some ⟨2, 0⟩, 2, 3, 0x20, 0) := by decide
theorem test_cx6 : responseOf (exec (.cx6 30) State.reset) = some ⟨0, 121⟩ := by decide
theorem test_cx6_illegal : responseOf (serveRequest 0x4004 State.reset) = some ⟨2, 0⟩ := by decide

/-! ## The accessor (V-FB) -/

theorem test_fset_slot : (nextOf (exec (.fset 0 1 0xF800) State.reset)).map (fun t => t.fb.cells) =
    some [(1024, 0x00), (1025, 0xF8)] := by decide
theorem test_fset_fget :
    responseOf (exec (.fget 319 239) { State.reset with fb := memWrite ⟨0, []⟩ 122687 0xABCD }) =
      some ⟨0, 0xABCD⟩ := by decide +kernel
theorem test_fget_column : (nextOf (exec (.fget 320 0) State.reset)).map (fun t => (t.resp, t.fltOp, t.fltX)) =
    some (some ⟨1, 0⟩, 5, 0x140) := by decide
theorem test_fset_negative : (nextOf (exec (.fset 0xFFFF 0 0xFFFF) State.reset)).map (fun t => (t.resp, t.fb.cells)) =
    some (some ⟨1, 0⟩, []) := by decide
theorem test_fsetc_dropped : (nextOf (exec (.fsetc 320 0 0xFFFF) State.reset)).map (fun t => (t.resp, t.fb.cells)) =
    some (some ⟨0, 0⟩, []) := by decide
theorem test_fsetc_written : (nextOf (exec (.fsetc 0 0 0xFFFF) State.reset)).map (fun t => (t.resp, t.fb.cells)) =
    some (some ⟨0, 0⟩, [(0, 0xFF), (1, 0xFF)]) := by decide
theorem test_fwid : responseOf (exec .fwid State.reset) = some ⟨0, 320⟩ := by decide
theorem test_fhgt : responseOf (exec .fhgt State.reset) = some ⟨0, 240⟩ := by decide
theorem test_fstr : responseOf (exec .fstr State.reset) = some ⟨0, 512⟩ := by decide
/-- ILLEGAL_REQUEST before OUT_OF_BOUNDS (V-FB row 18). -/
theorem test_priority : responseOf (serveRequest 0x0000010000019005 State.reset) = some ⟨2, 0⟩ := by decide

/-! ## Transforms (V-MIR, V-XF, W7) at test geometries -/

theorem test_mirror_even : (List.range 4).map (memRead (mirrorFrame ⟨2, 2, 2⟩ (pixels [0xA, 0xB, 0xC, 0xD]))) =
    [0xB, 0xA, 0xD, 0xC] := by decide +kernel
theorem test_mirror_odd : (List.range 3).map (memRead (mirrorFrame ⟨3, 1, 3⟩ (pixels [0xA, 0xB, 0xC]))) =
    [0xC, 0xB, 0xA] := by decide +kernel
theorem test_gray_frame : (List.range 4).map (memRead (grayFrame ⟨2, 2, 2⟩ (pixels [0x1234, 0xF800, 0xABCD, 0xFFFD]))) =
    [0x528A, 0x52AA, 0x8430, 0xFFDF] := by decide +kernel
theorem test_gray_padding : (List.range 3).map (memRead (grayFrame ⟨2, 1, 3⟩ (pixels [0x0002, 0x8000, 0xF800]))) =
    [0x0020, 0x2965, 0xF800] := by decide +kernel
theorem test_invert_frame : (List.range 2).map (memRead (invertFrame ⟨2, 1, 2⟩ (pixels [0x1234, 0xF800]))) =
    [0xEDCB, 0x07FF] := by decide +kernel
/-- A transform outside EDIT_SELECT on the controller's path (V-FLT). -/
theorem test_transform_guard :
    (nextOf (issue .controller 0xB State.reset)).map (fun t => (t.resp, t.fltCause, t.fltOp)) =
      some (some ⟨3, 0⟩, 3, 0xB) := by decide
/-- A transform at the service port (V-FLT). -/
theorem test_transform_port : (nextOf (serveRequest 0xB State.reset)).map (fun t => (t.resp, t.fltOp)) =
    some (some ⟨2, 0⟩, 0xB) := by decide

/-! ## STAT (P1, P6) -/

theorem test_stat_record : responseOf (exec (.stat false) { State.reset with fltCause := 2, fltOp := 3 }) =
    some ⟨0, 0x00003200⟩ := by decide
theorem test_stat_operands : responseOf (exec (.stat true) { State.reset with fltX := 0x140 }) =
    some ⟨0, 0x00000140⟩ := by decide
/-- Bits 2:0 of STAT 0 in each control state (the table of spec/10_state.md R24). -/
theorem test_stat_codes : [Ctl.streaming, .capturing, .frozenOverlaid, .editSelect, .halted].map
    (fun c => responseOf (exec (.stat false) (stateAt c 0 []))) =
      [some ⟨0, 0⟩, some ⟨0, 1⟩, some ⟨0, 2⟩, some ⟨0, 3⟩, some ⟨0, 4⟩] := by decide

/-! ## The controller (V-CTL) and a step -/

theorem test_streaming_capture : pollView 0xFFFFFFF1 State.reset = some (.capturing, 1, false, false, 0) := by decide
theorem test_streaming_other : pollView 0xE State.reset = some (.streaming, 0, false, false, 0) := by decide
theorem test_debounce_clears : pollView 0xE (stateAt .capturing 1 []) = some (.capturing, 0, false, false, 0) := by decide
theorem test_counter_wraps : pollView 0 { stateAt .capturing 0 [] with cnt := 9999 } =
    some (.capturing, 0, true, false, 0) := by decide
theorem test_overlay_done : pollView 0 { stateAt .capturing 0 [] with ovl := true, ovlDone := true } =
    some (.frozenOverlaid, 0, false, false, 0) := by decide
theorem test_edit_capture_wins : pollView 0xF (stateAt .editSelect 0 []) = some (.streaming, 1, false, false, 0) := by
  decide
theorem test_edit_wait : pollView 0x6 (stateAt .editSelect 2 []) = some (.editSelect, 2, false, false, 0) := by decide
theorem test_halted_stays : pollView 0xF (stateAt .halted 0 []) = some (.halted, 0, false, false, 0) := by decide

/-- The overlay text of W10. -/
theorem test_overlay_text : overlayText 1 ⟨0, 0, 0⟩ = "PIC:1 T:00:00:00".toList := by decide +kernel
/-- No padding of the counter, two places for each part of the time (R200). -/
theorem test_overlay_text_long : overlayText 9999 ⟨23, 59, 7⟩ = "PIC:9999 T:23:59:07".toList := by decide +kernel
/-- The fifth cell starts four cell widths right of the anchor (R200). -/
theorem test_overlay_cell_places :
    overlayPoints ⟨0xFFFF, 10, 20, 8, [('1', [(1, 2)])]⟩ 1 ⟨0, 0, 0⟩ = [(43, 22)] := by decide +kernel
theorem test_overlay_cells : (overlayText 1 ⟨0, 0, 0⟩).length = 16 := by decide +kernel

/-- The placed word is what the next step serves. -/
theorem test_placed_word : responseOf (step (State.reset.withFetchWord 64 0x9)) = some ⟨0, 240⟩ := by decide
/-- A transform's word placed for the next step: the poll in EDIT_SELECT that runs it. -/
theorem test_placed_transform : step (State.reset.withFetchWord 64 0xD) =
    .next { State.reset with ctl := .editSelect, fb := invertFrame Config.geometry ⟨0, []⟩, dbw := 0x8 } :=
  runTransform_editSelect (s := { State.reset with ctl := .editSelect, fb := ⟨0, []⟩ }) rfl 0xD
    (invertFrame Config.geometry) (Laws.RoundTrip.xinv rfl) rfl 0x8

/-! ## Witnesses: for every statement with hypotheses, concrete inputs that meet them, clause by clause -/

/-- A time. -/
def midnight : TimeOfDay := ⟨0, 0, 0⟩

theorem witness_DecodeOfEncode : Instr.wellFormed (.cx5 31) = true ∧ Instr.wellFormed (.cx6 63) = true := by decide

theorem witness_EncodeOfDecode : decode 0x1F03 = .ok (.cx5 31) ∧ decode 0x3F04 = .ok (.cx6 63) := ⟨rfl, rfl⟩

theorem witness_LegalExactlyByTheTable :
    (∃ row ∈ opcodeTable, (0x1F03 : Request) &&& row.2 = row.1) ∧
    (¬ ∃ row ∈ opcodeTable, (0x2003 : Request) &&& row.2 = row.1) ∧ State.reset.ctl ≠ .halted := by decide

theorem witness_StepRunsTheDecodedInstruction :
    (stateAt .streaming 0 [.request 8]).moves = .request 8 :: [] ∧ decode 8 = .ok .fwid ∧
    (stateAt .streaming 0 []).ctl ≠ .halted ∧
    (stateAt .halted 0 [.request 0x10E]).moves = .request 0x10E :: [] ∧ decode 0x10E = .ok (.stat true) ∧
    (∃ sel, Instr.stat true = .stat sel) := ⟨rfl, rfl, by decide, rfl, rfl, ⟨true, rfl⟩⟩

/-- The three transform clauses: the buttons 0x2, 0x4, 0x8, and 0xE, 0xC, which more than one bit of is set. -/
theorem witness_StepRunsTheDecodedInstruction_poll :
    (∀ btn : BitVec 32,
      (stateAt .editSelect 0 [.poll btn midnight]).moves = .poll btn midnight :: [] ∧
      (stateAt .editSelect 0 [.poll btn midnight]).ctl = .editSelect ∧
      (stateAt .editSelect 0 [.poll btn midnight]).dbw = 0) ∧
    (0xE#32).getLsbD 0 = false ∧ (0xE#32).getLsbD 1 = true ∧
    ((0xC#32).getLsbD 0 = false ∧ (0xC#32).getLsbD 1 = false ∧ (0xC#32).getLsbD 2 = true) ∧
    ((0x8#32).getLsbD 0 = false ∧ (0x8#32).getLsbD 1 = false ∧ (0x8#32).getLsbD 2 = false ∧
      (0x8#32).getLsbD 3 = true) := ⟨fun _ => ⟨rfl, rfl, rfl⟩, by decide⟩

theorem witness_TransformsOnlyOnTheControllersPath :
    State.reset.ctl ≠ .halted ∧ Instr.xinv ∈ [Instr.xmir, .xgry, .xinv] := by decide

/-- A legal and an illegal word of an operation code, for a clause `PortServes`. -/
def portWitness (op : Code) (legal : Request → Prop) (good bad : Request) : Prop :=
  State.reset.ctl ≠ .halted ∧
  (good.extractLsb' 0 4 = op ∧ good.extractLsb' 4 4 = 0 ∧ good.extractLsb' 56 8 = 0 ∧ legal good) ∧
  (bad.extractLsb' 0 4 = op ∧ ¬ (bad.extractLsb' 4 4 = 0 ∧ bad.extractLsb' 56 8 = 0 ∧ legal bad))

theorem witness_CdecUnpacksThePixel :
    portWitness 0x1 (fun q => q.extractLsb' 24 16 = 0 ∧ q.extractLsb' 40 16 = 0) 0xFFFF01 0x1000001 := by
  unfold portWitness; decide

theorem witness_CencPacksTheLowBits :
    portWitness 0x2 (fun q => q.extractLsb' 32 8 = 0 ∧ q.extractLsb' 40 16 = 0) 0xFFFFFF02 0x0000000100000002 := by
  unfold portWitness; decide

theorem witness_Cx5ReplicatesTheTopBits :
    portWitness 0x3 (fun q => q.extractLsb' 13 11 = 0 ∧ q.extractLsb' 24 16 = 0 ∧ q.extractLsb' 40 16 = 0)
      0x1F03 0x2003 ∧ (31 : Operand).toNat < 32 ∧ 32 ≤ (32 : Operand).toNat := by
  unfold portWitness; decide

theorem witness_Cx6ReplicatesTheTopBits :
    portWitness 0x4 (fun q => q.extractLsb' 14 10 = 0 ∧ q.extractLsb' 24 16 = 0 ∧ q.extractLsb' 40 16 = 0)
      0x3F04 0x4004 ∧ (63 : Operand).toNat < 64 ∧ 64 ≤ (64 : Operand).toNat := by
  unfold portWitness; decide

theorem witness_CodecLaws : (31 : Nat) < 32 ∧ (63 : Nat) < 64 ∧ (30 : Nat) < 31 ∧ (62 : Nat) < 63 := by decide

theorem witness_CodecIsStateless :
    (0xABCD01 : Request).extractLsb' 0 4 ∈ [0x1#4, 0x2#4, 0x3#4, 0x4#4] ∧
    (0x4004 : Request).extractLsb' 0 4 ∈ [0x1#4, 0x2#4, 0x3#4, 0x4#4] ∧
    State.reset.ctl ≠ .halted ∧ (stateAt .halted 0 []).ctl = .halted ∧ (stateAt .halted 0 []).resp = none := by decide

/-- The corners of the frame, and the coordinates just outside each edge. -/
theorem frame_corners : onFrame 0 0 ∧ onFrame 319 239 ∧ ¬ onFrame 320 0 ∧ ¬ onFrame 0 240 ∧ ¬ onFrame 0xFFFF 0 ∧
    ¬ onFrame 0 0xFFFF ∧ ¬ onFrame 0x8000 0x8000 := by unfold onFrame; decide

theorem witness_FgetReadsAVisiblePixel :
    portWitness 0x5 (fun q => q.extractLsb' 40 16 = 0) 0xEF013F05 0x0000010000019005 ∧ onFrame 319 239 ∧
    ¬ onFrame 320 0 := ⟨by unfold portWitness; decide, frame_corners.2.1, frame_corners.2.2.1⟩

theorem witness_FsetWritesAVisiblePixel :
    portWitness 0x6 (fun _ => True) 0x00ABCD00EF013F06 0x0100000000000006 ∧ onFrame 319 239 ∧ ¬ onFrame 0 240 :=
  ⟨by unfold portWitness; decide, frame_corners.2.1, frame_corners.2.2.2.1⟩

theorem witness_FsetcClips :
    portWitness 0x7 (fun _ => True) 0x00FFFF0000014007 0x00FFFF0000014017 ∧ onFrame 319 239 ∧ ¬ onFrame 0xFFFF 0 :=
  ⟨by unfold portWitness; decide, frame_corners.2.1, frame_corners.2.2.2.2.1⟩

theorem witness_GeometryReads : ∀ op ∈ [0x8#4, 0x9#4, 0xA#4],
    portWitness op (fun q => q.extractLsb' 8 16 = 0 ∧ q.extractLsb' 24 16 = 0 ∧ q.extractLsb' 40 16 = 0)
      (0#60 ++ op) (1#56 ++ 0#4 ++ op) := by unfold portWitness; decide

theorem witness_GetSetLaws :
    ((319 : Nat) < 320 ∧ 239 * 512 + 319 = 239 * 512 + 319) ∧ onFrame 319 239 ∧ (0 : Nat) ≠ 239 * 512 + 319 ∧
    ¬ onFrame 0 0xFFFF := ⟨by decide, frame_corners.2.1, by decide, frame_corners.2.2.2.2.2.1⟩

/-- Two regions that differ in a padding slot only; a Set that succeeds; the ends of a row's padding. -/
theorem witness_AccessorNeverTouchesPadding :
    (∀ j, j % 512 < 320 → memRead (memWrite ⟨0, []⟩ 320 5) j = memRead ⟨0, []⟩ j) ∧
    (∃ n, setPixel Config.geometry ⟨0, []⟩ 319 239 5 = .ok n) ∧ (320 : Nat) ≤ 320 % 512 ∧ (320 : Nat) ≤ 511 % 512 :=
  ⟨fun j hj => memRead_memWrite_other (by rintro rfl; exact absurd hj (by decide)) _ _, ⟨_, rfl⟩, by decide, by decide⟩

theorem witness_XmirMirrorsTheFrame : (stateAt .editSelect 0 []).ctl = .editSelect := rfl

theorem witness_MirrorAtAnyGeometry :
    (∀ g ∈ [Geometry.mk 3 1 3, Geometry.mk 320 240 512], g.width ≤ g.stride ∧ 2 < g.width ∧ 0 < g.height) ∧
    ∀ x y, x < 3 → y < 1 → y * 3 + x ≠ 3 := ⟨by decide, by omega⟩

theorem witness_XgryGraysTheFrame : (stateAt .editSelect 2 []).ctl = .editSelect := rfl

theorem witness_GrayscaleStability : (1 : Pixel).toNat < 2 := by decide

theorem witness_XgryStableAfterTwoPasses : (stateAt .editSelect 4 []).ctl = .editSelect := rfl

theorem witness_XinvComplementsTheFrame : (stateAt .editSelect 8 []).ctl = .editSelect := rfl

theorem witness_TransformsNeedEditSelect :
    ∀ c ∈ [Ctl.streaming, .capturing, .frozenOverlaid, .halted], (stateAt c 0 []).ctl ≠ .editSelect := by decide

theorem witness_TransformsStayInBounds :
    (∀ g ∈ [Geometry.mk 1 1 1, Geometry.mk 3 1 4, Config.geometry], g.legal) ∧
    ∀ x y, x < 3 → y < 1 → y * 4 + x ≠ 3 := ⟨by decide, by omega⟩

theorem witness_DebounceWaitsForTheBit : ∀ i < 4,
    (stateAt .editSelect (BitVec.twoPow 4 i) [.poll 0x8 midnight]).moves = .poll 0x8 midnight :: [] ∧
    (stateAt .editSelect (BitVec.twoPow 4 i) []).ctl ≠ .halted ∧
    (stateAt .editSelect (BitVec.twoPow 4 i) []).dbw = BitVec.twoPow 4 i := by decide

theorem witness_StreamingWaitsForCapture :
    (stateAt .streaming 0 [.poll 1 midnight]).moves = .poll 1 midnight :: [] ∧
    (stateAt .streaming 0 []).ctl = .streaming ∧ (stateAt .streaming 0 []).dbw = 0 := by decide

/-- The three phases of CAPTURING, the first at the counter's last value. -/
theorem witness_CapturingCountsAndOverlays :
    (stateAt .capturing 0 [.poll 0 midnight]).moves = .poll 0 midnight :: [] ∧
    (stateAt .capturing 0 []).ctl = .capturing ∧ (stateAt .capturing 0 []).dbw = 0 ∧
    { stateAt .capturing 0 [] with cnt := 9999 }.ovl = false ∧
    { stateAt .capturing 0 [] with ovl := true, ovlDone := true }.ovlDone = true ∧
    { stateAt .capturing 0 [] with ovl := true }.ovlDone = false := by decide

theorem witness_OverlaidOpensAndHaltedStays :
    (stateAt .frozenOverlaid 0 [.poll 0 midnight]).moves = .poll 0 midnight :: [] ∧
    (stateAt .frozenOverlaid 0 []).ctl = .frozenOverlaid ∧ (stateAt .frozenOverlaid 0 []).dbw = 0 ∧
    (stateAt .halted 0 [.poll 0 midnight]).ctl = .halted := by decide

theorem witness_EditSelectActsOnTheLowestBit :
    (stateAt .editSelect 0 [.poll 0xC midnight]).moves = .poll 0xC midnight :: [] ∧
    (stateAt .editSelect 0 []).ctl = .editSelect ∧ (stateAt .editSelect 0 []).dbw = 0 := by decide

theorem witness_UpperButtonBitsIgnored :
    (0xFFFFFFF1 : BitVec 32).extractLsb' 0 4 = (0x1 : BitVec 32).extractLsb' 0 4 := by decide

theorem witness_TimeReadOnlyAtTheRequest :
    ∀ s ∈ [stateAt .streaming 0 [], stateAt .capturing 1 []],
      ¬ (s.ctl = .capturing ∧ s.dbw = 0 ∧ s.ovl = false) := by
  simp [stateAt]

theorem witness_StreamWritesOnlyAtTheBoundaries :
    (∃ t, step (stateAt .streaming 0 [.poll 1 midnight]) = .next t ∧ t.ctl = .capturing) ∧
    (∃ t, step (stateAt .editSelect 0 [.poll 1 midnight]) = .next t ∧ t.ctl = .streaming) ∧
    ∃ t, step (stateAt .capturing 0 [.reset]) = .next t ∧ t.hist = [] := ⟨⟨_, rfl, rfl⟩, ⟨_, rfl, rfl⟩, ⟨_, rfl, rfl⟩⟩

/-- A state after a capture, with its wait. -/
def captured (moves : List Move) : State := { stateAt .capturing 1 moves with hist := [.vctl 0] }

theorem witness_StepKeepsControllerInvariant :
    ControllerInv (captured [.poll 0 midnight]) ∧ ∃ t, step (captured [.poll 0 midnight]) = .next t :=
  ⟨by constructor <;> decide, ⟨_, rfl⟩⟩

theorem witness_ReachableStatesAreLegal :
    (Reachable State.reset ∧ State.reset.ctl = .streaming) ∧
    Reachable { captured [] with resp := none } :=
  ⟨⟨⟨[], 0, rfl⟩, rfl⟩, ⟨[.poll 1 midnight], 1, run_succ rfl⟩⟩

theorem witness_CaptureMirrorRecapture :
    ∃ s : State, s.ctl = .streaming ∧ s.dbw = 0 ∧ s.ovl = false ∧ s.cnt = 0 ∧ s.hist = [] ∧
      s.moves = [.poll 0x1 midnight, .poll 0x1 midnight, .poll 0x0 midnight, .poll 0x0 midnight] ++
        overlayMoves s.renderer 1 midnight ++
        [.poll 0x0 midnight, .poll 0x0 midnight, .poll 0x2 midnight, .poll 0x0 midnight, .poll 0x1 midnight,
          .poll 0x0 midnight] :=
  ⟨stateAt .streaming 0 ([.poll 0x1 midnight, .poll 0x1 midnight, .poll 0x0 midnight, .poll 0x0 midnight] ++
    overlayMoves Config.overlayRenderer 1 midnight ++ _), rfl, rfl, rfl, rfl, rfl, rfl⟩

theorem witness_StuckButtonHangs :
    (captured []).ctl = .capturing ∧ (captured []).dbw = 0x1 ∧ (captured []).resp = none ∧
    (∀ b ∈ [(0x1#32, midnight), (0x3#32, midnight)], b.1.getLsbD 0 = true) ∧
    (captured [.poll 1 midnight, .poll 3 midnight]).moves =
      [(0x1#32, midnight), (0x3#32, midnight)].map (fun b => .poll b.1 b.2) := by decide

/-- A request that faults, for each of the two causes the service port can give. -/
theorem witness_FaultsArePrecise :
    State.reset.resp = none ∧
    (∃ t r, serveRequest 0x14005 State.reset = .next t ∧ t.resp = some r ∧ r.status ≠ 0) ∧
    ∃ t r, serveRequest 0xF State.reset = .next t ∧ t.resp = some r ∧ r.status ≠ 0 :=
  ⟨rfl, ⟨_, ⟨1, 0⟩, rfl, rfl, by decide⟩, ⟨_, ⟨2, 0⟩, rfl, rfl, by decide⟩⟩

/-- A state that holds the fault record of `FGET 320, 0` (P2). -/
def recorded (moves : List Move) : State :=
  { stateAt .streaming 0 moves with
    fltCause := 1, fltOp := 5, fltX := 0x140, hist := [.fault 1 5 0x140 0] }

theorem witness_FaultRecordIsSticky :
    ((recorded [.request 0x00FFFF0000FFFF06]).fltCause ≠ 0 ∧
      (∃ t, step (recorded [.request 0x00FFFF0000FFFF06]) = .next t) ∧
      ∀ rest, (recorded [.request 0x00FFFF0000FFFF06]).moves ≠ .reset :: rest) ∧
    (recorded [.reset]).moves = .reset :: [] :=
  ⟨⟨by decide, ⟨_, rfl⟩, fun rest h => nomatch h⟩, rfl⟩

theorem witness_StepKeepsFaultInvariant :
    FaultInv (recorded [.request 0xF]) ∧ ∃ t, step (recorded [.request 0xF]) = .next t :=
  ⟨⟨by simp [recorded, stateAt, faults, State.reset], by simp [recorded, faults], by simp [recorded, faults]⟩,
    ⟨_, rfl⟩⟩

theorem witness_HaltedAcceptsStatusOnly :
    (stateAt .halted 0 []).ctl = .halted ∧ decode 0xE = .ok (.stat false) ∧ (∀ sel, decode 0x8 ≠ .ok (.stat sel)) ∧
    State.reset.ctl ≠ .editSelect ∧ State.reset.ctl ≠ .halted :=
  ⟨rfl, rfl, by decide, by decide, by decide⟩

theorem witness_ControllerNeverHalts :
    (stateAt .editSelect 0 [.poll 0x2 midnight]).ctl ≠ .halted ∧
    ∃ t, step (stateAt .editSelect 0 [.poll 0x2 midnight]) = .next t :=
  ⟨by decide, ⟨_, runTransform_editSelect (s := stateAt .editSelect 0 []) rfl 0xB
    (mirrorFrame Config.geometry) (Laws.RoundTrip.xmir rfl) rfl 0x2⟩⟩

theorem witness_StatReadsTheState :
    portWitness 0xE (fun q => q.extractLsb' 9 15 = 0 ∧ q.extractLsb' 24 16 = 0 ∧ q.extractLsb' 40 16 = 0)
      0x10E 0x20E := by
  unfold portWitness; decide

theorem witness_DmaWritesOnlyWhileStreaming :
    ∀ slot ∈ [(⟨0, by decide⟩ : Fin Config.fbSlots), ⟨122879, by decide⟩],
      (stateAt .streaming 0 [.dma slot 5]).moves = .dma slot 5 :: [] ∧
      { stateAt .streaming 0 [.dma slot 5] with vctl := 0x4 }.vctl = 0x4 ∧
      (stateAt .streaming 0 [.dma slot 5]).vctl ≠ 0x4 := by
  intro slot _
  exact ⟨rfl, rfl, (by decide : (0 : BitVec 32) ≠ 4)⟩

/-- A renderer whose only glyph is P, with one point, at the anchor (0, 0): of any overlay it inks slot 0 alone. -/
def dotRenderer : Renderer := ⟨0xFFFF, 0, 0, 8, [('P', [(0, 0)])]⟩

/-- An overlay pending and not done, some of its slots drawn. -/
def overlaying (inked : List Nat) (moves : List Move) : State :=
  { stateAt .capturing 0 moves with
    ovl := true, cnt := 1, hist := [.vctl 0, .ovlReq 1 midnight], renderer := dotRenderer, inked := inked }

/-- P4's FSETC (0, 0) in the ink, the same in another colour, one at (1, 0), and one outside the frame. -/
def dotWord : Request := 0x00FFFF0000000007
def otherColour : Request := 0x0012340000000007
def otherPixel : Request := 0x00FFFF0000000107
def outsideWord : Request := 0x00FFFF0000019007

theorem test_dot_overlay : (overlaying [] []).overlaySlots = [0] := by decide +kernel

theorem overlaying_inv (moves : List Move) : ControllerInv (overlaying [] moves) :=
  have h : ControllerInv (overlaying [] []) := by constructor <;> decide
  ⟨h.1, h.2, h.3, h.4, h.5, h.6, h.7, h.8, h.9, h.10, h.11, h.12⟩

theorem test_renderer_draws :
    (nextOf (step (overlaying [] [.renderer dotWord]))).map (fun t => (memRead t.fb 0, t.inked)) =
      some (0xFFFF, [0]) := by decide +kernel

theorem test_renderer_kept_to_its_overlay :
    step (overlaying [] [.renderer otherColour]) = .refused .rendererOutsideOverlay ∧
    step (overlaying [] [.renderer otherPixel]) = .refused .rendererOutsideOverlay := ⟨rfl, rfl⟩

theorem test_renderer_clips :
    (nextOf (step (overlaying [] [.renderer outsideWord]))).map (fun t => (t.fb.cells, t.inked)) = some ([], []) := by
  decide +kernel

theorem test_renderer_outside_window :
    step (stateAt .capturing 0 [.renderer dotWord]) = .refused .rendererOutsideWindow ∧
    step { overlaying [0] [.renderer dotWord] with ovlDone := true } = .refused .rendererOutsideWindow := ⟨rfl, rfl⟩

theorem test_renderer_done :
    step (overlaying [] [.rendererDone]) = .refused .rendererNotFinished ∧
    (nextOf (step (overlaying [0] [.rendererDone]))).map (·.ovlDone) = some true := ⟨rfl, by decide +kernel⟩

theorem witness_OnlyTheRendererSetsDone :
    ((∃ t, step (overlaying [0] [.rendererDone]) = .next t ∧ t.ovlDone = true) ∧
      (overlaying [0] [.rendererDone]).ovlDone = false) ∧
    ((∀ inked, (overlaying inked [.rendererDone]).moves = .rendererDone :: [] ∧ (overlaying inked []).ovl = true) ∧
      (∀ j ∈ (overlaying [0] []).overlaySlots, j ∈ (overlaying [0] []).inked) ∧
      ¬ (∀ j ∈ (overlaying [] []).overlaySlots, j ∈ (overlaying [] []).inked)) ∧
    (stateAt .capturing 0 []).ovl = false ∧
    { overlaying [0] [] with ovlDone := true }.ovlDone = true :=
  ⟨⟨⟨{ overlaying [0] [] with ovlDone := true }, rfl, rfl⟩, rfl⟩,
    ⟨fun _ => ⟨rfl, rfl⟩, by decide +kernel, by decide +kernel⟩, rfl, rfl⟩

theorem witness_OverlayInksItsPointsOnly :
    (overlaying [] (overlayMoves dotRenderer 1 midnight ++ [])).moves = overlayMoves dotRenderer 1 midnight ++ [] ∧
    (overlaying [] []).renderer = dotRenderer ∧ (overlaying [] []).cnt = 1 ∧ (overlaying [] []).ovlTime = midnight ∧
    (overlaying [] []).ctl = .capturing ∧ (overlaying [] []).ovl = true ∧ (overlaying [] []).ovlDone = false :=
  ⟨rfl, rfl, rfl, rfl, rfl, rfl, rfl⟩

/-- The moves of a whole overlay, one of each kind that may come between. -/
def overlayRun : List Move :=
  [.request 0x8, .scanOut ⟨0, by decide⟩, .poll 0 midnight, .renderer outsideWord, .renderer dotWord]

theorem witness_OverlayChangesItsPixelsOnly :
    ControllerInv (overlaying [] (overlayRun ++ [.rendererDone])) ∧
    (overlaying [] []).ovl = true ∧ (overlaying [] []).ovlDone = false ∧ (overlaying [] []).inked = [] ∧
    (∀ m ∈ overlayRun, (∃ btn time, m = .poll btn time) ∨ (∃ q, m = .renderer q) ∨ (∃ slot, m = .scanOut slot) ∨
      (∃ slot v, m = .dma slot v) ∨ ∃ q, m = .request q ∧ Statements.writesNothing q) ∧
    (nextOf (core.run (overlayRun.length + 1) (overlaying [] (overlayRun ++ [.rendererDone])))).isSome = true := by
  refine ⟨overlaying_inv _, rfl, rfl, rfl, ?_, by decide +kernel⟩
  simp [overlayRun]
  intro x y p
  have h : decode 8#64 = .ok .fwid := rfl
  simp [h]

theorem witness_StepKeepsOverlayInvariant :
    (∃ t, step (stateAt .capturing 0 [.poll 0 midnight]) = .next t ∧ t.ovl = true) ∧
    (stateAt .capturing 0 [.poll 0 midnight]).ovl = false ∧
    ControllerInv (overlaying [] [.renderer dotWord]) ∧ (overlaying [] [.renderer dotWord]).ovl = true ∧
    OverlayInv (overlaying [] []).fb (overlaying [] [.renderer dotWord]) ∧
    (∀ q rest, (overlaying [] [.renderer dotWord]).moves = .request q :: rest → Statements.writesNothing q) ∧
    (∀ rest, (overlaying [] [.renderer dotWord]).moves ≠ .reset :: rest) ∧
    (nextOf (step (overlaying [] [.renderer dotWord]))).isSome = true :=
  ⟨⟨_, rfl, rfl⟩, rfl, overlaying_inv _, rfl, ⟨fun _ => rfl, fun _ h => absurd h List.not_mem_nil, Bool.noConfusion⟩,
    fun _ _ h => Move.noConfusion (List.cons.inj h).1, fun _ h => Move.noConfusion (List.cons.inj h).1,
    by decide +kernel⟩

theorem witness_RendererDrawsItsOverlay :
    (∀ q, (overlaying [] [.renderer q]).moves = .renderer q :: [] ∧ (overlaying [] [.renderer q]).ctl ≠ .halted ∧
      (overlaying [] [.renderer q]).ovl = true ∧ (overlaying [] [.renderer q]).ovlDone = false) ∧
    (Statements.writesNothing 0x8 ∧ Statements.writesNothing 0x0 ∧
      decode 0x00FFFF0000000006 = .ok (.fset 0 0 0xFFFF)) ∧
    ((stateAt .capturing 0 []).ovl = false ∧ { overlaying [0] [] with ovlDone := true }.ovlDone = true ∧
      (stateAt .capturing 0 [.renderer 0x8]).moves = .renderer 0x8 :: [] ∧
      (stateAt .capturing 0 [.rendererDone]).moves = .rendererDone :: []) ∧
    (decode outsideWord = .ok (.fsetc 400 0 0xFFFF) ∧ ¬ onFrame 400 0) ∧
    (decode dotWord = .ok (.fsetc 0 0 0xFFFF) ∧ onFrame 0 0 ∧ 0xFFFF = (overlaying [] []).renderer.ink ∧
      0 ∈ (overlaying [] []).overlaySlots) ∧
    (decode otherColour = .ok (.fsetc 0 0 0x1234) ∧ 0x1234 ≠ (overlaying [] []).renderer.ink) ∧
    decode otherPixel = .ok (.fsetc 1 0 0xFFFF) ∧ onFrame 1 0 ∧ 1 ∉ (overlaying [] []).overlaySlots := by
  have hw : decode 0x8 = .ok .fwid := rfl
  have hn : decode 0x0 = .error .reservedOp := rfl
  simp only [Statements.onFrame]
  exact ⟨fun _ => ⟨rfl, by simp [overlaying, stateAt], rfl, rfl⟩,
    ⟨fun _ _ _ => ⟨fun h => (nomatch hw.symm.trans h), fun h => (nomatch hw.symm.trans h)⟩,
      fun _ _ _ => ⟨fun h => (nomatch hn.symm.trans h), fun h => (nomatch hn.symm.trans h)⟩, rfl⟩,
    ⟨rfl, trivial, rfl, rfl⟩, by decide +kernel, by decide +kernel, by decide +kernel,
    by decide +kernel⟩

theorem witness_ResetSetsEveryField : (recorded [.reset]).moves = .reset :: [] := rfl

theorem witness_ScanOutChangesNothing :
    (stateAt .streaming 0 [.scanOut ⟨122879, by decide⟩]).moves = .scanOut ⟨122879, by decide⟩ :: [] := rfl

theorem witness_StepKeepsMemoryForm :
    (memWrite ⟨0, []⟩ 122879 5).wf ∧
    ∃ t, step { stateAt .streaming 0 [.request 0x0012340000000006] with fb := memWrite ⟨0, []⟩ 122879 5 } = .next t :=
  ⟨memWrite_wf (empty_wf 0) (by decide) 5, ⟨_, rfl⟩⟩

theorem witness_SlotBytesOnTheBus : (122879 : Nat) < Config.fbSlots := by decide

end Sys2Proof.Tests
end

/-! SUPPORT. The transforms at any geometry: XMIR's closed form (O20), and the loops with the accessor's bounds check
in every access, which give what the unchecked loops give (O26). -/

namespace Sys2Proof.Proofs.TransformScope

open Sys2Proof Sys2Proof.Machine

/-! ## Checked accesses of a visible pixel (spec/41_framebuffer_accessor.md R131 to R133) -/

@[simp] theorem inBounds_natCast (g : Geometry) (x y : Nat) : inBounds g x y = true ↔ x < g.width ∧ y < g.height := by
  simp [inBounds]

theorem getPixel_natCast {g : Geometry} {x y : Nat} (hx : x < g.width) (hy : y < g.height) (m : Memory) :
    getPixel g m x y = .ok (memRead m (slotIndex g x y)) := by
  simp [getPixel, hx, hy]

theorem setPixel_natCast {g : Geometry} {x y : Nat} (hx : x < g.width) (hy : y < g.height) (m : Memory) (p : Pixel) :
    setPixel g m x y p = .ok (memWrite m (slotIndex g x y) p) := by
  simp [setPixel, hx, hy]

/-! ## The checked bodies of the loops -/

theorem mapAtChecked_eq_ok {g : Geometry} (f : Pixel → Pixel) (m : Memory) {c : Nat × Nat}
    (hx : c.1 < g.width) (hy : c.2 < g.height) : mapAtChecked g f m c = .ok (mapAt g f m c) := by
  simp only [mapAtChecked, getPixel_natCast hx hy, setPixel_natCast hx hy]
  rfl

/-- The mirrored column W-1-x, an integer in R162, is the natural number the unchecked loop computes. -/
theorem mirrorColumn_natCast {g : Geometry} {x : Nat} (hx : x < g.width) :
    (g.width : Int) - 1 - x = ((g.width - 1 - x : Nat) : Int) := by omega

theorem swapAtChecked_eq_ok {g : Geometry} (m : Memory) {c : Nat × Nat}
    (hx : c.1 < g.width) (hy : c.2 < g.height) : swapAtChecked g m c = .ok (swapAt g m c) := by
  have hm : g.width - 1 - c.1 < g.width := by omega
  simp only [swapAtChecked, mirrorColumn_natCast hx, getPixel_natCast hx hy, getPixel_natCast hm hy]
  show (setPixel g m c.1 c.2 _ >>= fun m => setPixel g m _ c.2 _) = _
  rw [setPixel_natCast hx hy]
  exact setPixel_natCast hm hy _ _

/-! ## The checked loops (R169) -/

/-- A walk whose body never faults at a listed coordinate is the walk of the plain body. -/
theorem foldlM_eq_ok_foldl {α β ε : Type} {checked : α → β → Except ε α} {run : α → β → α} {l : List β}
    (h : ∀ c ∈ l, ∀ a, checked a c = .ok (run a c)) (a : α) : l.foldlM checked a = .ok (l.foldl run a) := by
  induction l generalizing a with
  | nil => rfl
  | cons c rest ih =>
    rw [List.foldlM_cons, h c List.mem_cons_self a]
    exact ih (fun d hd => h d (List.mem_cons_of_mem c hd)) (run a c)

theorem mapFrameChecked_eq_ok (g : Geometry) (f : Pixel → Pixel) (m : Memory) :
    (frameOrder g).foldlM (mapAtChecked g f) m = .ok ((frameOrder g).foldl (mapAt g f) m) :=
  foldlM_eq_ok_foldl (fun _ hc m => mapAtChecked_eq_ok f m (mem_frameOrder.mp hc).1 (mem_frameOrder.mp hc).2) m

theorem mirrorFrameChecked_eq_ok (g : Geometry) (m : Memory) : mirrorFrameChecked g m = .ok (mirrorFrame g m) := by
  refine foldlM_eq_ok_foldl (fun c hc m => ?_) m
  obtain ⟨hx, hy⟩ := mem_mirrorOrder.mp hc
  exact swapAtChecked_eq_ok m (by omega) hy

/-! ## The obligations -/

/-- Settles O20, by the closed form of XMIR's walk on visible pixels and its frame on every other slot. -/
theorem mirrorAtAnyGeometry : Obligations.MirrorAtAnyGeometry := by
  unfold Obligations.MirrorAtAnyGeometry
  intro g m hg
  exact ⟨fun x y hx hy => memRead_mirrorFrame_visible hg m hx hy, fun j hj => memRead_mirrorFrame_other m hj⟩

/-- Settles O26: at every coordinate of a walk each access is in bounds, so no checked body faults. -/
theorem transformsStayInBounds : Obligations.TransformsStayInBounds := by
  unfold Obligations.TransformsStayInBounds
  rintro g m ⟨-, hg, -⟩
  exact ⟨mirrorFrameChecked_eq_ok g m, mapFrameChecked_eq_ok g grayPixel m, mapFrameChecked_eq_ok g invertPixel m,
    fun j hj => ⟨memRead_mirrorFrame_other m hj, memRead_mapFrame_other hg grayPixel m hj,
      memRead_mapFrame_other hg invertPixel m hj⟩⟩

end Sys2Proof.Proofs.TransformScope

/-! SUPPORT. The state record (spec/10_state.md): its values after reset, the two invariants every step keeps (the
fault record's and the controller's), what a poll and a request may change of it, and STAT. -/

namespace Sys2Proof.Proofs.StateRecord

open Sys2Proof Sys2Proof.Machine Sys2Proof.Safety Sys2Proof.Statements

/-! ## The fault record (spec/10_state.md R28, R29) -/

/-- What the fault record's invariant reads: the faults of the history and the four record fields. -/
def faultView (s : State) : List (Code × Code × Operand × Operand) × Code × Code × Operand × Operand :=
  (faults s.hist, s.fltCause, s.fltOp, s.fltX, s.fltY)

theorem faultInv_of_faultView_eq {s t : State} (hs : FaultInv s) (h : faultView t = faultView s) : FaultInv t := by
  simp only [faultView, Prod.mk.injEq] at h
  obtain ⟨hf, hc, ho, hx, hy⟩ := h
  constructor
  · rw [hf, hc, ho, hx, hy]; exact hs.first
  · rw [hf, hc, ho, hx, hy]; exact hs.none
  · rw [hf]; exact hs.causes

theorem faultInv_reset : FaultInv State.reset where
  first f h := by simp [State.reset, faults] at h
  none _ := ⟨rfl, rfl, rfl, rfl⟩
  causes f h := by simp [State.reset, faults] at h

theorem code_cases (code : FaultCode) : code.code = 1 ∨ code.code = 2 ∨ code.code = 3 := by
  cases code <;> decide

/-- Nothing is recorded exactly while no fault has been raised: a recorded cause is never 0. -/
theorem fltCause_eq_zero_iff {s : State} (hs : FaultInv s) : s.fltCause = 0 ↔ faults s.hist = [] := by
  refine ⟨fun h0 => ?_, fun h => (hs.none h).1⟩
  cases hf : faults s.hist with
  | nil => rfl
  | cons f fs =>
    have hrec : s.fltCause = f.1 := congrArg Prod.fst (hs.first f (by rw [hf]; rfl))
    have hcause := hs.causes f (by rw [hf]; exact List.mem_cons_self)
    rw [← hrec, h0] at hcause
    exact absurd hcause (by decide)

/-- A fault is recorded if it is the first, and leaves the record alone if it is not (R233, R235). -/
theorem raiseFault_keeps_faultInv {s : State} (hs : FaultInv s) (code : FaultCode) (op : Code) (a b : Operand) :
    FaultInv (s.raiseFault code op a b) := by
  have hfaults : faults (s.raiseFault code op a b).hist = faults s.hist ++ [(code.code, op, a, b)] := by simp
  constructor
  · intro f hf
    rw [hfaults] at hf
    by_cases h0 : s.fltCause = 0
    · rw [(fltCause_eq_zero_iff hs).mp h0] at hf
      simpa [h0] using hf
    · have hne : faults s.hist ≠ [] := fun h => h0 ((fltCause_eq_zero_iff hs).mpr h)
      rw [List.head?_append_of_ne_nil _ hne] at hf
      simpa only [State.raiseFault_fltCause, State.raiseFault_fltOp, State.raiseFault_fltX, State.raiseFault_fltY, h0,
        if_false] using hs.first f hf
  · simp
  · intro f hf
    rw [hfaults, List.mem_append, List.mem_singleton] at hf
    rcases hf with hf | rfl
    · exact hs.causes f hf
    · exact code_cases code

theorem served_keeps_faultInv {s t : State} (hs : FaultInv s) (h : Served s t) : FaultInv t := by
  cases h with
  | responds => exact faultInv_of_faultView_eq hs rfl
  | writes => exact faultInv_of_faultView_eq hs rfl
  | faults code op a b => exact raiseFault_keeps_faultInv hs code op a b

/-- No poll raises a fault or writes the record. -/
theorem polled_faultView {s t : State} (h : Polled s t) : faultView t = faultView s := by
  cases h <;> simp [faultView]

theorem step_keeps_faultInv {s t : State} (hs : FaultInv s) (h : step s = .next t) : FaultInv t := by
  have htook : ∀ rest, FaultInv (s.took rest) := fun _ => faultInv_of_faultView_eq hs rfl
  have hmark : ∀ rest slot, FaultInv ((s.took rest).markInked slot) := fun _ _ => faultInv_of_faultView_eq hs rfl
  have hfree : FaultInv { s with draws := s.draws + 1, resp := none } := faultInv_of_faultView_eq hs rfl
  cases step_stepped h with
  | served q rest _ _ _ hv => exact served_keeps_faultInv (htook rest) hv
  | drew q x y slot rest _ _ _ _ _ _ _ _ hv =>
    rcases hv with ⟨-, rfl⟩ | hv
    · exact hmark rest slot
    · exact served_keeps_faultInv (hmark rest slot) hv
  | ignored q rest => exact htook rest
  | polled btn time rest _ _ hp => exact faultInv_of_faultView_eq (htook rest) (polled_faultView hp)
  | polledFree _ _ hp => exact faultInv_of_faultView_eq hfree (polled_faultView hp)
  | done rest => exact faultInv_of_faultView_eq hs rfl
  | dma slot v rest => exact faultInv_of_faultView_eq hs rfl
  | scanned slot rest => exact htook rest
  | reset rest => exact faultInv_of_faultView_eq faultInv_reset rfl

/-- Settles O42: a served request raises at most one fault, every other step but reset leaves the record and the
faults of the history alone, and reset starts both anew. -/
theorem stepKeepsFaultInvariant : Obligations.StepKeepsFaultInvariant := by
  unfold Obligations.StepKeepsFaultInvariant
  exact fun _ _ => step_keeps_faultInv

/-- Settles O43. -/
theorem resetMeetsFaultInvariant : Obligations.ResetMeetsFaultInvariant := by
  unfold Obligations.ResetMeetsFaultInvariant
  exact faultInv_reset

/-! ## The controller's invariant (spec/43_capture_controller.md R206) -/

/-- What the controller's invariant reads: the controller's fields, the port's last value and, of the history, the
values written to the port and the number of overlay requests. -/
def controllerView (s : State) : Ctl × BitVec 4 × Bool × Bool × BitVec 16 × BitVec 32 × List (BitVec 32) × Nat :=
  (s.ctl, s.dbw, s.ovl, s.ovlDone, s.cnt, s.vctl, vctlWrites s.hist, overlayRequests s.hist)

theorem controllerInv_of_controllerView_eq {s t : State} (hs : ControllerInv s)
    (h : controllerView t = controllerView s) : ControllerInv t := by
  simp only [controllerView, Prod.mk.injEq] at h
  obtain ⟨hctl, hdbw, hovl, hdone, hcnt, hvctl, hwrites, hreqs⟩ := h
  have hdisables : disables t.hist = disables s.hist := by rw [disables, disables, hwrites]
  constructor <;> simp only [hctl, hdbw, hovl, hdone, hcnt, hvctl, hwrites, hreqs, hdisables]
  exacts [hs.notHalted, hs.frozen, hs.streaming, hs.overlay, hs.doneInWindow, hs.wait, hs.waitCapture,
    hs.waitTransform, hs.counter, hs.alternate, hs.parity, hs.requests]

theorem controllerInv_reset : ControllerInv State.reset := by
  constructor <;> simp [State.reset, vctlWrites, overlayRequests, disables, alternating]

/-- An overlay is pending, or its done stands, in CAPTURING only (R206 (d), (i)). -/
theorem overlay_idle {s : State} (hs : ControllerInv s) (h : s.ctl ≠ .capturing) :
    s.ovl = false ∧ s.ovlDone = false := by
  have hovl : ¬ s.ovl = true := fun ho => h (hs.overlay ho).1
  exact ⟨by simpa using hovl, by simpa using fun hd => hovl (hs.doneInWindow hd)⟩

/-! ### The port's writes in turn (R206 (g)) -/

@[simp] theorem disables_append_vctl (h : List Event) (v : BitVec 32) :
    disables (h ++ [.vctl v]) = disables h + if v = Config.vctlDisable then 1 else 0 := by
  simp [disables, List.count_append, List.count_singleton, beq_iff_eq]

@[simp] theorem disables_append_ovlReq (h : List Event) (c : BitVec 16) (time : TimeOfDay) :
    disables (h ++ [.ovlReq c time]) = disables h := by
  simp [disables]

/-- The other of the two values of the port. -/
def otherValue (v : BitVec 32) : BitVec 32 := if v = Config.vctlDisable then Config.vctlEnable else Config.vctlDisable

theorem alternating_cons (v w : BitVec 32) (ws : List (BitVec 32)) :
    alternating v (w :: ws) = (decide (w = v) && alternating (otherValue v) ws) := rfl

theorem otherValue_otherValue {v : BitVec 32} (h : v = Config.vctlDisable ∨ v = Config.vctlEnable) :
    otherValue (otherValue v) = v := by
  rcases h with rfl | rfl <;> decide

theorem otherValue_cases (v : BitVec 32) : otherValue v = Config.vctlDisable ∨ otherValue v = Config.vctlEnable := by
  unfold otherValue
  split_ifs
  · exact .inr rfl
  · exact .inl rfl

/-- Values in turn stay in turn when the next in turn is added: by parity of what stands before it. -/
theorem alternating_append {v : BitVec 32} {l : List (BitVec 32)} (hv : v = Config.vctlDisable ∨ v = Config.vctlEnable)
    (h : alternating v l = true) :
    alternating v (l ++ [if l.length % 2 = 0 then v else otherValue v]) = true := by
  induction l generalizing v with
  | nil => simp [alternating]
  | cons w ws ih =>
    rw [alternating_cons, Bool.and_eq_true] at h
    have htail := ih (otherValue_cases v) h.2
    rw [otherValue_otherValue hv] at htail
    rw [List.cons_append, alternating_cons, Bool.and_eq_true]
    refine ⟨h.1, ?_⟩
    rw [List.length_cons]
    rcases Nat.mod_two_eq_zero_or_one ws.length with h2 | h2
    · rw [if_neg (by omega)]; rwa [if_pos h2] at htail
    · rw [if_pos (by omega)]; rwa [if_neg (by omega)] at htail

/-- In STREAMING the next write in turn is the disabling one. -/
theorem alternating_append_disable {s : State} (hs : ControllerInv s) (h : s.ctl = .streaming) :
    alternating 0x0#32 (vctlWrites s.hist ++ [Config.vctlDisable]) = true := by
  have := alternating_append (.inl rfl) hs.alternate
  rwa [if_pos (hs.parity.mp h)] at this

/-- Outside STREAMING the next write in turn is the enabling one. -/
theorem alternating_append_enable {s : State} (hs : ControllerInv s) (h : s.ctl ≠ .streaming) :
    alternating 0x0#32 (vctlWrites s.hist ++ [Config.vctlEnable]) = true := by
  have hp : ¬ (vctlWrites s.hist).length % 2 = 0 := fun hp => h (hs.parity.mpr hp)
  have := alternating_append (.inl rfl) hs.alternate
  rwa [if_neg hp] at this

theorem wrapInc_le (c : BitVec 16) : (wrapInc c).toNat ≤ 9999 := by
  unfold wrapInc Config.counterMax
  split_ifs with h
  · decide
  · rw [BitVec.toNat_add]
    have h1 : (1 : BitVec 16).toNat = 1 := rfl
    omega

/-! ### Every step keeps it -/

/-- The debounce wait ends (R194). -/
theorem controllerInv_released {s : State} (hs : ControllerInv s) : ControllerInv { s with dbw := 0 } :=
  { hs with
    overlay := fun h => ⟨(hs.overlay h).1, rfl⟩
    wait := .inl rfl
    waitCapture := by simp
    waitTransform := by simp }

/-- STREAMING to CAPTURING (R195). -/
theorem controllerInv_captures {s : State} (hs : ControllerInv s) (hc : s.ctl = .streaming) :
    ControllerInv { s.vctlWrite Config.vctlDisable with ctl := .capturing, dbw := 0x1 } := by
  obtain ⟨hovl, hdone⟩ := overlay_idle hs (by simp [hc])
  have heven := hs.parity.mp hc
  exact { hs with
    notHalted := by simp
    frozen := fun _ => rfl
    streaming := by simp
    overlay := by simp [hovl]
    doneInWindow := by simp [hdone]
    wait := .inr (.inl rfl)
    waitCapture := fun _ => .inl rfl
    waitTransform := by simp
    alternate := by simpa using alternating_append_disable hs hc
    parity := by simp [Nat.succ_mod_two_eq_zero_iff, heven]
    requests := by simpa [hovl, hc] using hs.requests }

/-- CAPTURING requests the overlay (R196). -/
theorem controllerInv_requests {s : State} (hs : ControllerInv s) (hc : s.ctl = .capturing) (hd : s.dbw = 0)
    (ho : s.ovl = false) (time : TimeOfDay) :
    ControllerInv { s.record (.ovlReq (wrapInc s.cnt) time) with
      cnt := wrapInc s.cnt, ovl := true, ovlDone := false, ovlTime := time, inked := [] } :=
  { hs with
    streaming := by simp [hc]
    overlay := fun _ => ⟨hc, hd⟩
    doneInWindow := by simp
    counter := wrapInc_le s.cnt
    alternate := by simpa using hs.alternate
    parity := by simpa using hs.parity
    requests := by simpa [hc, ho] using hs.requests }

/-- CAPTURING to FROZEN_OVERLAID (R196). -/
theorem controllerInv_overlaid {s : State} (hs : ControllerInv s) (hc : s.ctl = .capturing) (hd : s.dbw = 0)
    (ho : s.ovl = true) : ControllerInv { s with ovl := false, ovlDone := false, ctl := .frozenOverlaid } :=
  { hs with
    notHalted := by simp
    frozen := fun _ => hs.frozen (by simp [hc])
    streaming := by simp
    overlay := by simp
    doneInWindow := by simp
    waitCapture := by simp [hd]
    waitTransform := by simp [hd]
    parity := by simpa [hc] using hs.parity
    requests := by simpa [ho] using hs.requests }

/-- FROZEN_OVERLAID to EDIT_SELECT (R201). -/
theorem controllerInv_opens {s : State} (hs : ControllerInv s) (hc : s.ctl = .frozenOverlaid) (hd : s.dbw = 0) :
    ControllerInv { s with ctl := .editSelect } :=
  { hs with
    notHalted := by simp
    frozen := fun _ => hs.frozen (by simp [hc])
    streaming := by simp
    overlay := by simp [(overlay_idle hs (by simp [hc])).1]
    waitCapture := by simp [hd]
    waitTransform := fun _ => rfl
    parity := by simpa [hc] using hs.parity
    requests := by simpa [hc] using hs.requests }

/-- EDIT_SELECT to STREAMING (R198). -/
theorem controllerInv_rearms {s : State} (hs : ControllerInv s) (hc : s.ctl = .editSelect) :
    ControllerInv { s.vctlWrite Config.vctlEnable with ctl := .streaming, dbw := 0x1 } := by
  obtain ⟨hovl, hdone⟩ := overlay_idle hs (by simp [hc])
  have hne : s.ctl ≠ .streaming := by simp [hc]
  have hodd := Nat.mod_two_ne_zero.mp ((not_congr hs.parity).mp hne)
  exact { hs with
    notHalted := by simp
    frozen := by simp
    streaming := by simp [Config.vctlEnable]
    overlay := by simp [hovl]
    doneInWindow := by simp [hdone]
    wait := .inr (.inl rfl)
    waitCapture := fun _ => .inr rfl
    waitTransform := by simp
    alternate := by simpa using alternating_append_enable hs hne
    parity := by simp [Nat.succ_mod_two_eq_zero_iff, hodd]
    requests := by simpa [hc, show Config.vctlEnable ≠ Config.vctlDisable by decide] using hs.requests }

/-- A transform starts the wait for its button (R198). -/
theorem controllerInv_transforms {s : State} (hs : ControllerInv s) (hc : s.ctl = .editSelect) (m : Memory)
    {wait : BitVec 4} (hw : wait = 0x2 ∨ wait = 0x4 ∨ wait = 0x8) :
    ControllerInv { s with fb := m, resp := none, dbw := wait } :=
  { hs with
    overlay := fun h => absurd (hs.overlay h).1 (by simp [hc])
    wait := .inr (.inr hw)
    waitCapture := by rcases hw with rfl | rfl | rfl <;> simp
    waitTransform := fun _ => hc }

theorem polled_keeps_controllerInv {s t : State} (hs : ControllerInv s) (h : Polled s t) : ControllerInv t := by
  cases h with
  | stays => exact hs
  | released => exact controllerInv_released hs
  | captures hc hd => exact controllerInv_captures hs hc
  | requests time hc hd ho => exact controllerInv_requests hs hc hd ho time
  | overlaid hc hd ho => exact controllerInv_overlaid hs hc hd ho
  | opens hc hd => exact controllerInv_opens hs hc hd
  | rearms hc hd => exact controllerInv_rearms hs hc
  | transforms m wait hc hd hm hw => exact controllerInv_transforms hs hc m hw

/-- No request, of whatever requester, reaches what the controller's invariant reads. -/
theorem served_controllerView {s t : State} (h : Served s t) : controllerView t = controllerView s := by
  obtain ⟨hctl, hdbw, hovl, hdone, hcnt, hvctl, -, -, -, -, -, hwrites, hreqs⟩ := served_controller h
  simp only [controllerView, hctl, hdbw, hovl, hdone, hcnt, hvctl, hwrites, hreqs]

theorem step_keeps_controllerInv {s t : State} (hs : ControllerInv s) (h : step s = .next t) : ControllerInv t := by
  have htook : ∀ rest, ControllerInv (s.took rest) := fun _ => controllerInv_of_controllerView_eq hs rfl
  have hmark : ∀ rest slot, ControllerInv ((s.took rest).markInked slot) :=
    fun _ _ => controllerInv_of_controllerView_eq hs rfl
  have hfree : ControllerInv { s with draws := s.draws + 1, resp := none } := controllerInv_of_controllerView_eq hs rfl
  cases step_stepped h with
  | served q rest _ _ _ hv => exact controllerInv_of_controllerView_eq (htook rest) (served_controllerView hv)
  | drew q x y slot rest _ _ _ _ _ _ _ _ hv =>
    rcases hv with ⟨-, rfl⟩ | hv
    · exact hmark rest slot
    · exact controllerInv_of_controllerView_eq (hmark rest slot) (served_controllerView hv)
  | ignored q rest => exact htook rest
  | polled btn time rest _ _ hp => exact polled_keeps_controllerInv (htook rest) hp
  | polledFree _ _ hp => exact polled_keeps_controllerInv hfree hp
  | done rest _ ho => exact { htook rest with doneInWindow := fun _ => ho }
  | dma slot v rest => exact controllerInv_of_controllerView_eq hs rfl
  | scanned slot rest => exact htook rest
  | reset rest => exact controllerInv_of_controllerView_eq controllerInv_reset rfl

/-! ### Runs from reset -/

/-- A predicate that reset meets under every list of moves and every step keeps holds of every reachable state. -/
theorem reachable_induction {P : State → Prop} (hreset : ∀ moves, P { State.reset with moves := moves })
    (hstep : ∀ s t, P s → step s = .next t → P t) {s : State} (h : Reachable s) : P s := by
  have hrun : ∀ (k : Nat) (u : State), P u → core.run k u = .next s → P s := by
    intro k
    induction k with
    | zero =>
      intro u hu hk
      cases (run_zero u).symm.trans hk
      exact hu
    | succ k ih =>
      intro u hu hk
      obtain ⟨v, huv, hk⟩ := run_succ_next hk
      exact ih v (hstep u v hu huv) hk
  obtain ⟨moves, k, hk⟩ := h
  exact hrun k _ (hreset moves) hk

/-- Settles O36. -/
theorem resetMeetsControllerInvariant : Obligations.ResetMeetsControllerInvariant := by
  unfold Obligations.ResetMeetsControllerInvariant
  exact fun _ => controllerInv_of_controllerView_eq controllerInv_reset rfl

/-- Settles O37, by induction on the run; R206 (i) follows since an overlay is pending in CAPTURING only. -/
theorem reachableStatesAreLegal : Obligations.ReachableStatesAreLegal := by
  unfold Obligations.ReachableStatesAreLegal
  intro s hreach
  have hs : ControllerInv s :=
    reachable_induction resetMeetsControllerInvariant (fun _ _ => step_keeps_controllerInv) hreach
  exact ⟨hs, fun hc => overlay_idle hs (by simp [hc])⟩

/-! ## What a poll samples (spec/10_state.md R33, spec/43_capture_controller.md R193) -/

/-- Values with the same low four bits agree on each of those bits. -/
theorem getLsbD_eq_of_low_eq {b c : BitVec 32} (h : b.extractLsb' 0 4 = c.extractLsb' 0 4) {i : Nat} (hi : i < 4) :
    b.getLsbD i = c.getLsbD i := by
  simpa [hi] using congrArg (·.getLsbD i) h

theorem buttonEvent_eq_of_low_eq {b c : BitVec 32} (h : b.extractLsb' 0 4 = c.extractLsb' 0 4) :
    buttonEvent b = buttonEvent c := by
  simp only [buttonEvent, getLsbD_eq_of_low_eq h (show 0 < 4 by decide), getLsbD_eq_of_low_eq h (show 1 < 4 by decide),
    getLsbD_eq_of_low_eq h (show 2 < 4 by decide), getLsbD_eq_of_low_eq h (show 3 < 4 by decide)]

/-- Settles O32: the debounce test reads the low four bits, STREAMING bit 0, and EDIT_SELECT the button event. -/
theorem upperButtonBitsIgnored : Obligations.UpperButtonBitsIgnored := by
  unfold Obligations.UpperButtonBitsIgnored
  intro s b c time h
  have hdebounce : stepDebounce b s = stepDebounce c s := by simp only [stepDebounce, h]
  have hstreaming : stepStreaming b s = stepStreaming c s := by
    simp only [stepStreaming, getLsbD_eq_of_low_eq h (show 0 < 4 by decide)]
  have hedit : stepEditSelect b s = stepEditSelect c s := by simp only [stepEditSelect, buttonEvent_eq_of_low_eq h]
  simp only [pollStep, hdebounce, hstreaming, hedit]

/-! ## Overlay done (spec/10_state.md R37) -/

/-- A poll can only clear overlay done. -/
theorem polled_ovlDone {s t : State} (h : Polled s t) (hd : s.ovlDone = false) : t.ovlDone = false := by
  cases h with
  | stays => exact hd
  | released => exact hd
  | captures => exact hd
  | requests => rfl
  | overlaid => rfl
  | opens => exact hd
  | rearms => exact hd
  | transforms => exact hd

theorem served_ovlDone {s t : State} (h : Served s t) : t.ovlDone = s.ovlDone := by
  obtain ⟨-, -, -, hdone, -⟩ := served_controller h
  exact hdone

/-- A step that sets overlay done is the renderer's done step, with the overlay pending and drawn. -/
theorem step_sets_ovlDone {s t : State} (h : step s = .next t) (hs : s.ovlDone = false) (ht : t.ovlDone = true) :
    s.ovl = true ∧ (∀ j ∈ s.overlaySlots, j ∈ s.inked) ∧ ∃ rest, s.moves = .rendererDone :: rest := by
  have hclear : ∀ {p : Prop}, t.ovlDone = false → p := fun hf => absurd (ht.symm.trans hf) (by decide)
  cases step_stepped h with
  | served q rest _ _ _ hv => exact hclear ((served_ovlDone hv).trans hs)
  | drew q x y slot rest _ _ _ _ _ _ _ _ hv =>
    rcases hv with ⟨-, rfl⟩ | hv
    · exact hclear hs
    · exact hclear ((served_ovlDone hv).trans hs)
  | ignored q rest => exact hclear hs
  | polled btn time rest _ _ hp => exact hclear (polled_ovlDone hp hs)
  | polledFree _ _ hp => exact hclear (polled_ovlDone hp hs)
  | done rest hm ho _ hall => exact ⟨ho, hall, rest, hm⟩
  | dma slot v rest => exact hclear hs
  | scanned slot rest => exact hclear hs
  | reset rest => exact hclear rfl

/-- The renderer's done step in its window (R199, R200; log entry 24). -/
theorem step_rendererDone {s : State} {rest : List Move} (hm : s.moves = .rendererDone :: rest) (ho : s.ovl = true)
    (hd : s.ovlDone = false) :
    step s = if ∀ j ∈ s.overlaySlots, j ∈ s.inked then .next { after s rest with ovlDone := true }
      else .refused .rendererNotFinished := by
  have hw : inOverlayWindow (s.took rest) = true := by simp [inOverlayWindow, State.took, ho, hd]
  rw [step_cons hm, runMove, rendererDone, if_neg (by simp [hw])]
  rfl

/-- The poll that requests an overlay and the poll that consumes its done both clear overlay done (R196). -/
theorem pollStep_clears_ovlDone (btn : BitVec 32) (time : TimeOfDay) {s : State} (hc : s.ctl = .capturing)
    (hd : s.dbw = 0) (ho : s.ovl = false ∨ s.ovlDone = true) :
    ∃ t, pollStep btn time s = .next t ∧ t.ovlDone = false := by
  refine ⟨stepCapturing time s, by simp [pollStep, hc, hd], ?_⟩
  unfold stepCapturing
  split_ifs with h1 h2
  · rfl
  · rfl
  · exact absurd (ho.resolve_left h1) h2

/-- Settles O49. -/
theorem onlyTheRendererSetsDone : Obligations.OnlyTheRendererSetsDone := by
  unfold Obligations.OnlyTheRendererSetsDone
  refine ⟨fun s t => step_sets_ovlDone, fun s rest hm ho hd => ⟨fun hall => ?_, fun hnot => ?_⟩,
    fun s btn time => pollStep_clears_ovlDone btn time⟩
  · rw [step_rendererDone hm ho hd, if_pos hall]
  · rw [step_rendererDone hm ho hd, if_neg hnot]

/-! ## Requests -/

/-- Settles O46: every accepted request answers one of the three kinds of `Served`, and none of them reaches the
controller. -/
theorem requestsLeaveTheControllerAlone : Obligations.RequestsLeaveTheControllerAlone := by
  unfold Obligations.RequestsLeaveTheControllerAlone
  intro who q s
  obtain ⟨t, ht, hserved⟩ := issue_served who q s
  exact ⟨t, ht, served_controller hserved⟩

/-- A fault leaves what `faulted` writes out. -/
theorem raiseFault_eq_faulted (s : State) (code : FaultCode) (op : Code) (a b : Operand) :
    s.raiseFault code op a b = faulted s code.code op a b := by
  have hrecord : (s.record (.fault code.code op a b)).fltCause = s.fltCause := rfl
  by_cases h : s.fltCause = 0
  · rw [State.raiseFault, State.recordFirstFault, if_pos (hrecord.trans h)]
    simp only [faulted, if_pos h]
    rfl
  · rw [State.raiseFault, State.recordFirstFault, if_neg (hrecord ▸ h)]
    simp only [faulted, if_neg h]
    rfl

/-- The service port serves an operation its word decodes to, unless it is the controller's. -/
theorem serveRequest_of_decode_ok {q : Request} {i : Instr} {s : State} (hd : decode q = .ok i)
    (hi : controllerOnly i = false) (hs : s.ctl ≠ .halted ∨ ∃ sel, i = .stat sel) : serveRequest q s = exec i s := by
  have haccepted : ¬ (s.ctl = .halted ∧ isStat q = false) := by
    rintro ⟨hc, hq⟩
    obtain ⟨sel, rfl⟩ := hs.resolve_left (not_not.mpr hc)
    simp [isStat, hd] at hq
  simp [serveRequest, haccepted, issue, hd, hi]

theorem serveRequest_of_decode_error {q : Request} {e : DecodeError} {s : State} (hd : decode q = .error e)
    (hs : s.ctl ≠ .halted) : serveRequest q s = .next (faulted s 2 (opField q) (fieldA q) (fieldB q)) := by
  simp only [serveRequest, hs, false_and, if_false, issue, hd, State.illegalRequest, raiseFault_eq_faulted]
  rfl

theorem accept_error {q : Request} {z : Bool} {i : Instr} (h : ¬ (zeroLow q = 0 ∧ zeroHigh q = 0 ∧ z = true)) :
    accept q z i = .error .mustBeZero := if_neg h

/-- An operation code whose row of the decoder accepts exactly the legal words is served as `PortServes` says. -/
theorem portServes_of_accept {op : Code} {legal : Request → Prop} {z : Request → Bool} {i : Request → Instr}
    (hd : ∀ q, opField q = op → decode q = accept q (z q) (i q)) (hi : ∀ q, controllerOnly (i q) = false)
    (hz : ∀ q, z q = true ↔ legal q) : PortServes op legal i := by
  intro q s hop hs
  have hrow := hd q hop
  rw [← hz]
  refine ⟨fun hlegal => ?_, fun hillegal => ?_⟩
  · exact serveRequest_of_decode_ok (hrow.trans (if_pos hlegal)) (hi q) (.inl hs)
  · rw [serveRequest_of_decode_error (hrow.trans (accept_error hillegal)) hs, show opField q = op from hop]
    rfl

/-! ## STAT (spec/43_capture_controller.md R205) -/

/-- The decoder's row of STAT (R88, R91). -/
theorem decode_stat {q : Request} (h : opField q = 0xE) :
    decode q = accept q ((fieldA q).extractLsb' 1 15 = 0 ∧ zeroBC q) (.stat ((fieldA q).getLsbD 0)) := by
  simp [decode, h]

theorem fieldA_upper (q : Request) : (fieldA q).extractLsb' 1 15 = q.extractLsb' 9 15 := by
  refine BitVec.eq_of_getLsbD_eq fun i hi => ?_
  have : 1 + i < 16 := by omega
  simp [fieldA, hi, this, ← Nat.add_assoc]

theorem fieldA_lsb (q : Request) : (fieldA q).getLsbD 0 = q.getLsbD 8 := by
  simp [fieldA]

theorem zeroBC_iff (q : Request) : zeroBC q = true ↔ fieldB q = 0 ∧ fieldC q = 0 := decide_eq_true_iff

theorem portServes_stat :
    PortServes 0xE (fun q => q.extractLsb' 9 15 = 0 ∧ q.extractLsb' 24 16 = 0 ∧ q.extractLsb' 40 16 = 0)
      (fun q => .stat (q.getLsbD 8)) :=
  portServes_of_accept (fun q h => by rw [decode_stat h, fieldA_lsb]) (fun _ => rfl)
    (fun q => by rw [decide_eq_true_iff, fieldA_upper, zeroBC_iff]; rfl)

theorem exec_stat_false (s : State) : exec (.stat false) s = .next (answered s
    (s.cnt ++ s.fltOp ++ s.fltCause ++ s.dbw ++ (if s.ovl then 1#1 else 0#1) ++ s.ctl.code)) := by
  cases h : s.ovl <;> simp [exec, execStat, statusData, h] <;> rfl

theorem exec_stat_true (s : State) : exec (.stat true) s = .next (answered s (s.fltY ++ s.fltX)) := rfl

/-- In every state, HALTED included, the word of STAT runs it (R236). -/
theorem serveRequest_encode_stat (sel : Bool) (s : State) : serveRequest (encode (.stat sel)) s = exec (.stat sel) s :=
  serveRequest_of_decode_ok (Laws.RoundTrip.stat sel rfl) rfl (.inr ⟨sel, rfl⟩)

/-- Settles O47. -/
theorem statReadsTheState : Obligations.StatReadsTheState := by
  unfold Obligations.StatReadsTheState
  exact ⟨⟨rfl, rfl, rfl, rfl, rfl⟩, portServes_stat, fun s => ⟨exec_stat_false s, exec_stat_true s,
    serveRequest_encode_stat false s, serveRequest_encode_stat true s⟩⟩

/-! ## Reset (spec/10_state.md R36, spec/70_reset_and_hazards.md R260) -/

/-- Settles O51: the reset move runs `resetBlock`, which lists no byte and counts one more reset. -/
theorem resetSetsEveryField : Obligations.ResetSetsEveryField := by
  unfold Obligations.ResetSetsEveryField
  intro s rest hm
  exact ⟨resetBlock (s.took rest), step_cons hm, rfl, rfl, rfl, rfl, rfl, rfl, rfl, rfl, rfl, rfl, rfl, fun _ => rfl⟩

/-- Settles O52. -/
theorem powerUpValues : Obligations.PowerUpValues := by
  unfold Obligations.PowerUpValues
  exact ⟨rfl, rfl, rfl, rfl, rfl, rfl, rfl, rfl, rfl, rfl, rfl, fun _ => rfl⟩

end Sys2Proof.Proofs.StateRecord

/-! SUPPORT. The framebuffer region (spec/20_memory.md): its canonical form along every step, the byte addresses of a
slot, and the moves of the agents that reach it: what a DMA write and a scan-out do, and which moves a step refuses. -/

namespace Sys2Proof.Proofs.MemoryRegion

open Sys2Proof Sys2Proof.Machine Sys2Proof.Statements Sys2Proof.Proofs.StateRecord

/-! ## The canonical form (R50) -/

theorem served_keeps_wf {s t : State} (hs : s.fb.wf) (h : Served s t) : t.fb.wf := by
  cases h with
  | responds => exact hs
  | writes m hm => exact hm hs
  | faults code op a b => rwa [State.raiseFault_fb]

theorem polled_keeps_wf {s t : State} (hs : s.fb.wf) (h : Polled s t) : t.fb.wf := by
  cases h with
  | transforms m _ _ _ hm => exact hm hs
  | _ => exact hs

theorem step_keeps_wf {s t : State} (hs : s.fb.wf) (h : step s = .next t) : t.fb.wf := by
  cases step_stepped h with
  | served _ rest _ _ _ hv => exact served_keeps_wf (s := s.took rest) hs hv
  | drew _ _ _ slot rest _ _ _ _ _ _ _ _ hv =>
    rcases hv with ⟨-, rfl⟩ | hv
    · exact hs
    · exact served_keeps_wf (s := (s.took rest).markInked slot) hs hv
  | ignored => exact hs
  | polled _ _ rest _ _ hp => exact polled_keeps_wf (s := s.took rest) hs hp
  | polledFree _ _ hp => exact polled_keeps_wf (s := { s with draws := s.draws + 1, resp := none }) hs hp
  | done => exact hs
  | dma slot v => exact memWrite_wf hs slot.isLt v
  | scanned => exact hs
  | reset => exact empty_wf _

/-- Settles O55: every write of a step lies inside the region, and reset lists nothing. -/
theorem stepKeepsMemoryForm : Obligations.StepKeepsMemoryForm := by
  unfold Obligations.StepKeepsMemoryForm
  exact fun _ _ => step_keeps_wf

/-- Settles O56. -/
theorem resetMemoryForm : Obligations.ResetMemoryForm := by
  unfold Obligations.ResetMemoryForm
  exact empty_wf 0

/-! ## Slot and byte addresses (R52 to R54) -/

theorem byte_memWrite_low (m : Memory) (i : Nat) (v : Pixel) :
    (memWrite m i v).byte (2 * i) = v.extractLsb' 0 8 := by
  have h := congrArg (fun p => p.extractLsb' 0 8) (memRead_memWrite_self m i v)
  simpa only [memRead, low_of_append] using h

theorem byte_memWrite_high (m : Memory) (i : Nat) (v : Pixel) :
    (memWrite m i v).byte (2 * i + 1) = v.extractLsb' 8 8 := by
  have h := congrArg (fun p => p.extractLsb' 8 8) (memRead_memWrite_self m i v)
  simpa only [memRead, high_of_append] using h

/-- A byte address inside the region reads the byte of its offset's key. -/
theorem busByteIn_fbBase_add (order : ByteOrder) (m : Memory) {k : Nat} (hk : k < 2 * Config.fbSlots) :
    m.busByteIn order (Config.fbBase + k) = some (m.byte (cellKey order k)) := by
  have hin : Config.fbBase ≤ Config.fbBase + k ∧ Config.fbBase + k < Config.fbBase + 2 * Config.fbSlots := by omega
  rw [Memory.busByteIn, if_pos hin, Nat.add_sub_cancel_left]

theorem cellKey_little (k : Nat) : cellKey .little k = k := rfl

theorem cellKey_big_even (i : Nat) : cellKey .big (2 * i) = 2 * i + 1 := by simp [cellKey]

theorem cellKey_big_odd (i : Nat) : cellKey .big (2 * i + 1) = 2 * i := by simp [cellKey]

theorem slotAddress_even (i : Nat) : slotAddress i % 2 = 0 := by
  simp only [slotAddress, Config.fbBase]
  omega

/-- Settles O57: the address `FB_BASE + k` has the key `k` under the little-endian order, and the other key of the same
slot under the big-endian one. -/
theorem slotBytesOnTheBus : Obligations.SlotBytesOnTheBus := by
  unfold Obligations.SlotBytesOnTheBus
  intro m i v hi
  have hlow : 2 * i < 2 * Config.fbSlots := by omega
  have hhigh : 2 * i + 1 < 2 * Config.fbSlots := by omega
  refine ⟨rfl, slotAddress_even i, ?_⟩
  rw [slotAddress, Nat.add_assoc]
  simp only [busByteIn_fbBase_add _ _ hlow, busByteIn_fbBase_add _ _ hhigh, cellKey_little, cellKey_big_even,
    cellKey_big_odd, byte_memWrite_low, byte_memWrite_high, and_self]

/-! ## The DMA and the scan-out (R56 to R58) -/

/-- What a step whose next move is a DMA write answers (log entry 9). -/
theorem step_dma {s : State} {slot : Fin Config.fbSlots} {v : Pixel} {rest : List Move}
    (hm : s.moves = .dma slot v :: rest) :
    step s = if s.vctl = 0x4 then .next { after s rest with fb := memWrite s.fb slot v }
      else .refused .dmaWhileFrozen := step_cons hm

/-- Settles O48. -/
theorem dmaWritesOnlyWhileStreaming : Obligations.DmaWritesOnlyWhileStreaming := by
  unfold Obligations.DmaWritesOnlyWhileStreaming
  intro s slot v rest hm
  refine ⟨fun henabled => ?_, fun hfrozen => ?_⟩
  · exact ⟨_, (step_dma hm).trans (if_pos henabled), rfl, fun j => memRead_memWrite s.fb slot j v⟩
  · exact (step_dma hm).trans (if_neg hfrozen)

/-- Settles O54: the move `scanOut` is taken, and nothing acts. -/
theorem scanOutChangesNothing : Obligations.ScanOutChangesNothing := by
  unfold Obligations.ScanOutChangesNothing
  exact fun _ _ _ hm => step_cons hm

/-! ## Which steps are refused (log entry 9) -/

theorem pollStep_next (btn : BitVec 32) (time : TimeOfDay) (s : State) : ∃ t, pollStep btn time s = .next t := by
  obtain ⟨t, ht, -⟩ := pollStep_polled btn time s
  exact ⟨t, ht⟩

theorem serveRequest_next (q : Request) (s : State) : ∃ t, serveRequest q s = .next t := by
  rcases serveRequest_cases q s with ⟨-, hs⟩ | ⟨t, ht, -⟩
  · exact ⟨s, hs⟩
  · exact ⟨t, ht⟩

/-- Outside its window the renderer's done step and each of its requests are refused (R199). -/
theorem step_outside_window {s : State} {m : Move} {rest : List Move} (hm : s.moves = m :: rest)
    (hr : m = .rendererDone ∨ ∃ q, m = .renderer q) (hw : s.ovl = false ∨ s.ovlDone = true) :
    step s = .refused .rendererOutsideWindow := by
  have hclosed : inOverlayWindow (s.took rest) = false := by
    rcases hw with h | h <;> simp [inOverlayWindow, State.took, h]
  rw [step_cons hm]
  rcases hr with rfl | ⟨q, rfl⟩
  · rw [runMove, rendererDone, if_pos hclosed]
  · rw [runMove, rendererRequest, if_pos hclosed]

/-- A field that is not negative as two's complement has the same value unsigned (spec/30_encoding.md R82). -/
theorem toNat_sint16 {v : Operand} (h : 0 ≤ v.toInt) : (sint16 v).toNat = v.toNat := by
  rw [sint16, BitVec.toInt_eq_toNat_of_lt (BitVec.toInt_pos_iff.mp h), Int.toNat_natCast]

/-- The bounds predicate on two operand fields at the hardware geometry (spec/41_framebuffer_accessor.md R131). -/
theorem inBounds_sint16 (x y : Operand) : inBounds Config.geometry (sint16 x) (sint16 y) = true ↔ onFrame x y :=
  decide_eq_true_iff

theorem visibleSlot_of_onFrame {x y : Operand} (h : onFrame x y) :
    visibleSlot (sint16 x, sint16 y) = some (y.toNat * 512 + x.toNat) := by
  have ⟨hx, _, hy, _⟩ := h
  rw [visibleSlot, if_pos ((inBounds_sint16 x y).mpr h), toNat_sint16 hx, toNat_sint16 hy]
  rfl

theorem visibleSlot_of_not_onFrame {x y : Operand} (h : ¬ onFrame x y) : visibleSlot (sint16 x, sint16 y) = none :=
  if_neg fun hin => h ((inBounds_sint16 x y).mp hin)

/-- An FSETC of the renderer is refused only where it would draw a visible pixel outside the overlay, or in another
colour (R200). -/
theorem rendererDraw_answers (q : Request) (x y : Operand) (p : Pixel) (s : State) :
    (∃ t, rendererDraw q x y p s = .next t) ∨
    (rendererDraw q x y p s = .refused .rendererOutsideOverlay ∧ onFrame x y ∧
      ¬ (p = s.renderer.ink ∧ y.toNat * 512 + x.toNat ∈ s.overlaySlots)) := by
  by_cases hframe : onFrame x y
  · simp only [rendererDraw, visibleSlot_of_onFrame hframe]
    split_ifs with hink
    · exact .inl (serveRequest_next q _)
    · exact .inr ⟨rfl, hframe, hink⟩
  · simp only [rendererDraw, visibleSlot_of_not_onFrame hframe]
    exact .inl (serveRequest_next q s)

/-- Inside its window a request of the renderer is refused only if it is an FSET, or an FSETC off the overlay. -/
theorem rendererRequest_answers (q : Request) {s : State} (ho : s.ovl = true) (hd : s.ovlDone = false) :
    (∃ t, rendererRequest q s = .next t) ∨
    (rendererRequest q s = .refused .rendererWriteNotClipped ∧ ∃ x y p, decode q = .ok (.fset x y p)) ∨
    (rendererRequest q s = .refused .rendererOutsideOverlay ∧ ∃ x y p, decode q = .ok (.fsetc x y p) ∧ onFrame x y ∧
      ¬ (p = s.renderer.ink ∧ y.toNat * 512 + x.toNat ∈ s.overlaySlots)) := by
  have hopen : ¬ inOverlayWindow s = false := by simp [inOverlayWindow, ho, hd]
  rw [rendererRequest, if_neg hopen]
  split
  · next x y p hdec => exact .inr (.inl ⟨rfl, x, y, p, hdec⟩)
  · next x y p hdec =>
    rcases rendererDraw_answers q x y p s with hnext | ⟨hrefused, hframe, hoff⟩
    · exact .inl hnext
    · exact .inr (.inr ⟨hrefused, x, y, p, hdec, hframe, hoff⟩)
  · exact .inl (serveRequest_next q s)

/-- Settles O53, by the next move: a poll, a served request, the scan-out and reset always answer, and each of the other
three moves is refused exactly where its guard fails. -/
theorem stepAlwaysAnswers : Obligations.StepAlwaysAnswers := by
  unfold Obligations.StepAlwaysAnswers
  intro s
  rcases hm : s.moves with _ | ⟨m, rest⟩
  · exact .inl (step_nil hm ▸ pollStep_next _ _ _)
  have hwindow : (s.ovl = false ∨ s.ovlDone = true) ∨ (s.ovl = true ∧ s.ovlDone = false) := by
    rcases Bool.eq_false_or_eq_true s.ovl with ho | ho
    · exact (Bool.eq_false_or_eq_true s.ovlDone).imp .inr fun hd => ⟨ho, hd⟩
    · exact .inl (.inl ho)
  cases m with
  | poll btn time => exact .inl (step_cons hm ▸ pollStep_next btn time _)
  | request q => exact .inl (step_cons hm ▸ serveRequest_next q _)
  | renderer q =>
    rcases hwindow with hw | ⟨ho, hd⟩
    · exact .inr (.inr (.inl ⟨step_outside_window hm (.inr ⟨q, rfl⟩) hw, hw, .inr ⟨q, rest, rfl⟩⟩))
    have hstep : step s = rendererRequest q (s.took rest) := step_cons hm
    rw [hstep]
    rcases rendererRequest_answers q (s := s.took rest) ho hd with
      hnext | ⟨hrefused, x, y, p, hdec⟩ | ⟨hrefused, x, y, p, hdec, hframe, hoff⟩
    · exact .inl hnext
    · exact .inr (.inr (.inr (.inl ⟨hrefused, q, rest, x, y, p, rfl, hdec⟩)))
    · exact .inr (.inr (.inr (.inr (.inl ⟨hrefused, q, rest, x, y, p, rfl, hdec, hframe, hoff⟩))))
  | rendererDone =>
    rcases hwindow with hw | ⟨ho, hd⟩
    · exact .inr (.inr (.inl ⟨step_outside_window hm (.inl rfl) hw, hw, .inl ⟨rest, rfl⟩⟩))
    by_cases hall : ∀ j ∈ s.overlaySlots, j ∈ s.inked
    · exact .inl ⟨_, (step_rendererDone hm ho hd).trans (if_pos hall)⟩
    · have hmissing : ∃ j, j ∈ s.overlaySlots ∧ j ∉ s.inked := by simpa using hall
      obtain ⟨j, hj, hnot⟩ := hmissing
      exact .inr (.inr (.inr (.inr (.inr
        ⟨(step_rendererDone hm ho hd).trans (if_neg hall), rest, j, rfl, hj, hnot⟩))))
  | dma slot v =>
    by_cases hv : s.vctl = 0x4
    · exact .inl ⟨_, (step_dma hm).trans (if_pos hv)⟩
    · exact .inr (.inl ⟨(step_dma hm).trans (if_neg hv), hv, slot, v, rest, rfl⟩)
  | scanOut slot => exact .inl ⟨_, step_cons hm⟩
  | reset => exact .inl ⟨_, step_cons hm⟩

end Sys2Proof.Proofs.MemoryRegion

/-! SUPPORT. The encoding (spec/30_encoding.md): the two round trips between words and instructions, legality of a word
as a match of its row of the opcode table, and the paths on which a decoded operation runs. -/

namespace Sys2Proof.Proofs.Encoding

open Sys2Proof Sys2Proof.Machine Sys2Proof.Statements Sys2Proof.Proofs.StateRecord

/-! ## Decode of encode (R91, R100) -/

/-- The round trip of every instruction, collected from its constructor's own lemma. -/
theorem decode_encode {i : Instr} (h : i.wellFormed = true) : decode (encode i) = .ok i := by
  cases i with
  | cdec p => exact Laws.RoundTrip.cdec p h
  | cenc r g b => exact Laws.RoundTrip.cenc r g b h
  | cx5 v => exact Laws.RoundTrip.cx5 v h
  | cx6 v => exact Laws.RoundTrip.cx6 v h
  | fget x y => exact Laws.RoundTrip.fget x y h
  | fset x y p => exact Laws.RoundTrip.fset x y p h
  | fsetc x y p => exact Laws.RoundTrip.fsetc x y p h
  | fwid => exact Laws.RoundTrip.fwid h
  | fhgt => exact Laws.RoundTrip.fhgt h
  | fstr => exact Laws.RoundTrip.fstr h
  | xmir => exact Laws.RoundTrip.xmir h
  | xgry => exact Laws.RoundTrip.xgry h
  | xinv => exact Laws.RoundTrip.xinv h
  | stat sel => exact Laws.RoundTrip.stat sel h

/-- Settles O1. -/
theorem decodeOfEncode : Obligations.DecodeOfEncode := by
  unfold Obligations.DecodeOfEncode
  exact fun _ => decode_encode

/-! ## Encode of decode (R81, R91) -/

/-- A field whose bits from `k` on are zero is a number of `k` bits. -/
theorem extract_upper_eq_zero_iff {n : Nat} (x : BitVec n) {k m : Nat} (hn : n = k + m) :
    x.extractLsb' k m = 0 ↔ x.toNat < 2 ^ k := by
  have hx : x.toNat / 2 ^ k < 2 ^ m := by
    rw [Nat.div_lt_iff_lt_mul (by positivity), ← Nat.pow_add, Nat.add_comm m k, ← hn]
    exact x.isLt
  rw [← BitVec.toNat_inj, extract_toNat, Nat.mod_eq_of_lt hx, BitVec.ofNat_eq_ofNat, BitVec.toNat_ofNat, Nat.zero_mod,
    Nat.div_eq_zero_iff_lt (by positivity)]

theorem zeroABC_iff (q : Request) : zeroABC q = true ↔ fieldA q = 0 ∧ fieldB q = 0 ∧ fieldC q = 0 := decide_eq_true_iff

/-- A word with zero Z0 and Z1 is the word of what its four other fields are. -/
theorem word_eq_of_fields {q : Request} {op : Code} {a b c : Operand} (h0 : zeroLow q = 0) (h1 : zeroHigh q = 0)
    (hop : (opField q).toNat = op.toNat) (ha : fieldA q = a) (hb : fieldB q = b) (hc : fieldC q = c) :
    word op a b c = q := by
  rw [← BitVec.eq_of_toNat_eq hop, ← ha, ← hb, ← hc]
  exact word_of_fields h0 h1

/-- The B field that CENC's word has is the field read, if its upper byte is zero. -/
theorem zero_append_low {b : Operand} (h : b.extractLsb' 8 8 = 0) : 0#8 ++ b.extractLsb' 0 8 = b := by
  rw [← BitVec.ofNat_eq_ofNat, ← h]
  exact halves_append b

/-- The A field that STAT's word has is the field read, if its bits but the lowest are zero. -/
theorem bit_of_upper_zero {a : Operand} (h : a.extractLsb' 1 15 = 0) : (if a.getLsbD 0 then 1 else 0) = a := by
  have ha : a.toNat < 2 := (extract_upper_eq_zero_iff a rfl).mp h
  apply BitVec.eq_of_toNat_eq
  have hbit : a.getLsbD 0 = decide (a.toNat = 1) := by
    rw [BitVec.getLsbD, Nat.testBit_zero, Nat.mod_eq_of_lt ha]
  rcases Nat.le_one_iff_eq_zero_or_eq_one.mp (Nat.le_of_lt_succ ha) with h0 | h1
  · rw [hbit, h0]; rfl
  · rw [hbit, h1]; rfl

/-- Row by row (`h_k` is the row of operation code k, the last one is the reserved codes): the decoder accepts only
words whose unused bits are zero, and such a word is the one of the instruction it gives. -/
theorem encode_of_decode {q : Request} {i : Instr} (h : decode q = .ok i) : i.wellFormed = true ∧ encode i = q := by
  unfold decode at h
  split at h
  case h_15 => cases h
  all_goals
    rename_i hop
    obtain ⟨⟨h0, h1, hz⟩, rfl⟩ := accept_ok.mp h
  case h_1 =>
    obtain ⟨hb, hc⟩ := (zeroBC_iff q).mp hz
    exact ⟨rfl, word_eq_of_fields h0 h1 hop rfl hb hc⟩
  case h_2 =>
    obtain ⟨hb, hc⟩ := of_decide_eq_true hz
    exact ⟨rfl, word_eq_of_fields h0 h1 hop (halves_append _).symm (zero_append_low hb).symm hc⟩
  case h_3 =>
    obtain ⟨ha, hbc⟩ := of_decide_eq_true hz
    obtain ⟨hb, hc⟩ := (zeroBC_iff q).mp hbc
    exact ⟨decide_eq_true ((extract_upper_eq_zero_iff (k := 5) _ rfl).mp ha), word_eq_of_fields h0 h1 hop rfl hb hc⟩
  case h_4 =>
    obtain ⟨ha, hbc⟩ := of_decide_eq_true hz
    obtain ⟨hb, hc⟩ := (zeroBC_iff q).mp hbc
    exact ⟨decide_eq_true ((extract_upper_eq_zero_iff (k := 6) _ rfl).mp ha), word_eq_of_fields h0 h1 hop rfl hb hc⟩
  case h_5 => exact ⟨rfl, word_eq_of_fields h0 h1 hop rfl rfl (of_decide_eq_true hz)⟩
  case h_6 | h_7 => exact ⟨rfl, word_eq_of_fields h0 h1 hop rfl rfl rfl⟩
  case h_14 =>
    obtain ⟨ha, hbc⟩ := of_decide_eq_true hz
    obtain ⟨hb, hc⟩ := (zeroBC_iff q).mp hbc
    exact ⟨rfl, word_eq_of_fields h0 h1 hop (bit_of_upper_zero ha).symm hb hc⟩
  all_goals
    obtain ⟨ha, hb, hc⟩ := (zeroABC_iff q).mp hz
    exact ⟨rfl, word_eq_of_fields h0 h1 hop ha hb hc⟩

/-- Settles O2. -/
theorem encodeOfDecode : Obligations.EncodeOfDecode := by
  unfold Obligations.EncodeOfDecode
  exact fun _ _ => encode_of_decode

/-! ## Legality by the opcode table (R81, R89) -/

/-- How many low bits of A, B and C a format uses; the bits above them must be zero. -/
structure OperandWidths where
  a : Nat
  b : Nat
  c : Nat

/-- The format of an operation code (R81, R88), if it is not reserved. `mem_opcodeTable_iff` ties it to the table and
`decode_ok_iff_legal` to the decoder. -/
def operandWidths (op : Nat) : Option OperandWidths :=
  match op with
  | 0x1 => some ⟨16, 0, 0⟩
  | 0x2 => some ⟨16, 8, 0⟩
  | 0x3 => some ⟨5, 0, 0⟩
  | 0x4 => some ⟨6, 0, 0⟩
  | 0x5 => some ⟨16, 16, 0⟩
  | 0x6 | 0x7 => some ⟨16, 16, 16⟩
  | 0x8 | 0x9 | 0xA | 0xB | 0xC | 0xD => some ⟨0, 0, 0⟩
  | 0xE => some ⟨1, 0, 0⟩
  | _ => none

/-- The operand fields of a word keep to the widths of a format. -/
def Fits (q : Request) (w : OperandWidths) : Prop :=
  (fieldA q).toNat < 2 ^ w.a ∧ (fieldB q).toNat < 2 ^ w.b ∧ (fieldC q).toNat < 2 ^ w.c

/-- A word is legal: its operation code has a format, and every bit that format does not use is zero (R89). -/
def Legal (q : Request) : Prop :=
  zeroLow q = 0 ∧ zeroHigh q = 0 ∧ ∃ w, operandWidths (opField q).toNat = some w ∧ Fits q w

/-! ### The table -/

/-- The low `k` bits of a field. -/
def lowBits (k : Nat) : Operand := BitVec.ofNat 16 (2 ^ k - 1)

/-- A row of the table: the match is the operation code alone, and the mask is every bit but the operand bits used. -/
def tableRow (op : Code) (w : OperandWidths) : Request × Request :=
  (word op 0 0 0, ~~~ word 0 (lowBits w.a) (lowBits w.b) (lowBits w.c))

theorem opcodeTable_eq_rows : opcodeTable =
    (List.finRange 16).filterMap fun op : Fin 16 => (operandWidths op.val).map (tableRow (.ofFin op)) := by
  decide

theorem mem_opcodeTable_iff {row : Request × Request} :
    row ∈ opcodeTable ↔ ∃ op w, operandWidths op.toNat = some w ∧ tableRow op w = row := by
  simp only [opcodeTable_eq_rows, List.mem_filterMap, List.mem_finRange, true_and, Option.map_eq_some_iff]
  exact ⟨fun ⟨op, h⟩ => ⟨.ofFin op, h⟩, fun ⟨op, h⟩ => ⟨op.toFin, h⟩⟩

/-- A field masked with the complement of its low `k` bits is zero exactly if it is a number of `k` bits. -/
theorem and_not_lowBits_eq_zero_iff (x : Operand) {k : Nat} : x &&& ~~~ lowBits k = 0#16 ↔ x.toNat < 2 ^ k := by
  have hlow : (x &&& lowBits k).toNat = x.toNat % 2 ^ k :=
    calc (x &&& lowBits k).toNat = x.toNat % 2 ^ 16 &&& (2 ^ k - 1) % 2 ^ 16 := by rw [Nat.mod_eq_of_lt x.isLt]; rfl
      _ = x.toNat % 2 ^ k % 2 ^ 16 := by rw [← Nat.and_mod_two_pow, Nat.and_two_pow_sub_one_eq_mod]
      _ = x.toNat % 2 ^ k := Nat.mod_eq_of_lt (lt_of_le_of_lt (Nat.mod_le _ _) x.isLt)
  have hsplit : x &&& ~~~ lowBits k = 0#16 ↔ x &&& lowBits k = x := by
    simp only [BitVec.eq_of_getLsbD_eq_iff]
    refine forall₂_congr fun i hi => ?_
    simp only [BitVec.getLsbD_and, BitVec.getLsbD_not, hi, decide_true, Bool.true_and, BitVec.getLsbD_zero]
    cases x.getLsbD i <;> simp
  rw [hsplit, ← BitVec.toNat_inj, hlow, Nat.mod_eq_iff_lt (by positivity)]

theorem extract_and_not {n : Nat} (x y : BitVec n) {s k : Nat} (h : s + k ≤ n) :
    (x &&& ~~~ y).extractLsb' s k = x.extractLsb' s k &&& ~~~ y.extractLsb' s k := by
  ext i hi
  have : s + i < n := by omega
  simp [this]

/-- A word without Z0 and Z1 is told by its other four fields. -/
theorem eq_word_iff {q : Request} {op : Code} {a b c : Operand} : q = word op a b c ↔
    opField q = op ∧ zeroLow q = 0 ∧ zeroHigh q = 0 ∧ fieldA q = a ∧ fieldB q = b ∧ fieldC q = c := by
  constructor
  · rintro rfl
    simp
  · rintro ⟨rfl, h0, h1, rfl, rfl, rfl⟩
    exact (word_of_fields h0 h1).symm

theorem matches_tableRow_iff {q : Request} {op : Code} {w : OperandWidths} :
    q &&& (tableRow op w).2 = (tableRow op w).1 ↔
      opField q = op ∧ zeroLow q = 0 ∧ zeroHigh q = 0 ∧ Fits q w := by
  have hop (m : Request) : opField (q &&& ~~~ m) = opField q &&& ~~~ opField m := extract_and_not q m (by decide)
  have h0 (m : Request) : zeroLow (q &&& ~~~ m) = zeroLow q &&& ~~~ zeroLow m := extract_and_not q m (by decide)
  have h1 (m : Request) : zeroHigh (q &&& ~~~ m) = zeroHigh q &&& ~~~ zeroHigh m := extract_and_not q m (by decide)
  have ha (m : Request) : fieldA (q &&& ~~~ m) = fieldA q &&& ~~~ fieldA m := extract_and_not q m (by decide)
  have hb (m : Request) : fieldB (q &&& ~~~ m) = fieldB q &&& ~~~ fieldB m := extract_and_not q m (by decide)
  have hc (m : Request) : fieldC (q &&& ~~~ m) = fieldC q &&& ~~~ fieldC m := extract_and_not q m (by decide)
  rw [tableRow, eq_word_iff]
  simp only [hop, h0, h1, ha, hb, hc, opField_word, zeroLow_word, zeroHigh_word, fieldA_word, fieldB_word, fieldC_word,
    and_not_lowBits_eq_zero_iff, Fits, BitVec.ofNat_eq_ofNat, BitVec.not_zero, BitVec.and_allOnes]

theorem matches_table_iff_legal {q : Request} : (∃ row ∈ opcodeTable, q &&& row.2 = row.1) ↔ Legal q := by
  constructor
  · rintro ⟨row, hmem, hmatch⟩
    obtain ⟨op, w, hw, rfl⟩ := mem_opcodeTable_iff.mp hmem
    obtain ⟨rfl, h0, h1, hfits⟩ := matches_tableRow_iff.mp hmatch
    exact ⟨h0, h1, w, hw, hfits⟩
  · rintro ⟨h0, h1, w, hw, hfits⟩
    exact ⟨_, mem_opcodeTable_iff.mpr ⟨_, w, hw, rfl⟩, matches_tableRow_iff.mpr ⟨rfl, h0, h1, hfits⟩⟩

/-! ### The decoder -/

/-- A row of the decoder accepts exactly the legal words, if its zero test is its format's. -/
theorem accept_ok_iff_legal {q : Request} {z : Bool} {i : Instr} {w : OperandWidths}
    (hw : operandWidths (opField q).toNat = some w) (hz : z = true ↔ Fits q w) :
    (∃ j, accept q z i = .ok j) ↔ Legal q := by
  simp only [accept_ok, exists_and_left, exists_eq', and_true, hz, Legal, hw, Option.some.injEq, exists_eq_left']

/-- A field of which the format uses no bit is zero. -/
theorem toNat_lt_two_pow_zero (x : Operand) : x.toNat < 2 ^ 0 ↔ x = 0 := by
  rw [Nat.pow_zero, Nat.lt_one_iff, ← BitVec.toNat_inj]; rfl

theorem fits_zeroBC {q : Request} {k : Nat} : Fits q ⟨k, 0, 0⟩ ↔ (fieldA q).toNat < 2 ^ k ∧ zeroBC q = true := by
  simp only [Fits, toNat_lt_two_pow_zero, zeroBC_iff]

/-- Row by row (`h_k` is the row of operation code k, the last one is the reserved codes), the decoder's zero test is
that of the format; a reserved code has no format. -/
theorem decode_ok_iff_legal {q : Request} : (∃ i, decode q = .ok i) ↔ Legal q := by
  have hA : (fieldA q).toNat < 2 ^ 16 := (fieldA q).isLt
  have hB : (fieldB q).toNat < 2 ^ 16 := (fieldB q).isLt
  have hC : (fieldC q).toNat < 2 ^ 16 := (fieldC q).isLt
  unfold decode
  split
  case h_15 => simp [Legal, operandWidths]
  all_goals
    rename_i hop
    refine accept_ok_iff_legal (congrArg operandWidths hop) ?_
  case h_1 => simp only [fits_zeroBC, hA, true_and]
  case h_2 =>
    simp only [Fits, hA, decide_eq_true_iff, extract_upper_eq_zero_iff _ (show 16 = 8 + 8 from rfl), true_and,
      toNat_lt_two_pow_zero]
  case h_3 => simp only [fits_zeroBC, decide_eq_true_iff, extract_upper_eq_zero_iff _ (show 16 = 5 + 11 from rfl)]
  case h_4 => simp only [fits_zeroBC, decide_eq_true_iff, extract_upper_eq_zero_iff _ (show 16 = 6 + 10 from rfl)]
  case h_5 => simp only [Fits, hA, hB, true_and, toNat_lt_two_pow_zero, decide_eq_true_iff]
  case h_6 | h_7 => simp only [Fits, hA, hB, hC, true_and]
  case h_14 => simp only [fits_zeroBC, decide_eq_true_iff, extract_upper_eq_zero_iff _ (show 16 = 1 + 15 from rfl)]
  all_goals simp only [fits_zeroBC, toNat_lt_two_pow_zero, zeroABC_iff, zeroBC_iff]

/-- Settles O3: a word is legal exactly if its row of the decoder accepts it, and exactly if it matches its row of the
table; what the decoder does not accept is served as an illegal request. -/
theorem legalExactlyByTheTable : Obligations.LegalExactlyByTheTable := by
  unfold Obligations.LegalExactlyByTheTable
  refine ⟨fun q => decode_ok_iff_legal.trans matches_table_iff_legal.symm, fun q s hno hs => ?_⟩
  cases hd : decode q with
  | ok i => exact absurd (matches_table_iff_legal.mpr (decode_ok_iff_legal.mp ⟨i, hd⟩)) hno
  | error e => exact serveRequest_of_decode_error hd hs

/-! ## Words of the spec's vectors -/

/-- Settles O4: each word is the encoding of its instruction. -/
theorem vectorWordsDecode : Obligations.VectorWordsDecode := by
  unfold Obligations.VectorWordsDecode
  exact ⟨decode_encode (i := .cdec 0xABCD) rfl, decode_encode (i := .cenc 21 30 13) rfl,
    decode_encode (i := .cx5 21) rfl, decode_encode (i := .fset 319 239 0xABCD) rfl,
    decode_encode (i := .xmir) rfl, decode_encode (i := .stat true) rfl⟩

/-! ## Where a decoded operation runs (R92, R198) -/

theorem controllerOnly_eq_false {i : Instr} (hm : i ≠ .xmir) (hg : i ≠ .xgry) (hv : i ≠ .xinv) :
    controllerOnly i = false := by
  cases i with
  | xmir => exact absurd rfl hm
  | xgry => exact absurd rfl hg
  | xinv => exact absurd rfl hv
  | _ => rfl

theorem transform_editSelect {s : State} (h : s.ctl = .editSelect) (op : Code) (run : Memory → Memory) :
    transform op run s = (s.withFrame (run s.fb)).respond statusOk 0 := if_pos h

/-- In EDIT_SELECT with no wait, a poll whose buttons select a transform is the step of that transform, its response
taken and the wait for its button started. -/
theorem step_runs_transform {s : State} {btn : BitVec 32} {time : TimeOfDay} {rest : List Move} {i : Instr}
    {wait : BitVec 4} (op : Code) (run : Memory → Memory) (hm : s.moves = .poll btn time :: rest)
    (hc : s.ctl = .editSelect) (hd : s.dbw = 0)
    (hbtn : stepEditSelect btn (after s rest) = runTransform i wait (after s rest))
    (hi : i.wellFormed = true) (hx : exec i (after s rest) = .next (transform op run (after s rest))) :
    ∃ t, exec i (after s rest) = .next t ∧ step s = .next { t with resp := none, dbw := wait } := by
  have hc' : (after s rest).ctl = .editSelect := hc
  have hstep : step s = pollStep btn time (after s rest) := step_cons hm
  have hpoll : pollStep btn time (after s rest) = stepEditSelect btn (after s rest) := by
    simp [pollStep, after, hc, hd]
  refine ⟨_, hx, ?_⟩
  rw [hstep, hpoll, hbtn, runTransform_editSelect hc' op run (decode_encode hi) hx, transform_editSelect hc']
  rfl

/-- Settles O5: outside HALTED, and for STAT in it, the service port runs what the word decodes to; a poll in
EDIT_SELECT runs what its lowest set button selects. -/
theorem stepRunsTheDecodedInstruction : Obligations.StepRunsTheDecodedInstruction := by
  unfold Obligations.StepRunsTheDecodedInstruction
  refine ⟨fun s q i rest hm hd hmir hgry hinv hs => ?_, fun s btn time rest hm hc hd h0 =>
    ⟨fun h1 => ?_, fun h1 h2 => ?_, fun h1 h2 h3 => ?_⟩⟩
  · have hstep : step s = serveRequest q (after s rest) := step_cons hm
    exact hstep.trans (serveRequest_of_decode_ok hd (controllerOnly_eq_false hmir hgry hinv) hs)
  · have hevent : buttonEvent btn = .mirror := by
      simp only [buttonEvent, h0, h1, Bool.false_eq_true, if_true, if_false]
    exact step_runs_transform 0xB (mirrorFrame Config.geometry) hm hc hd (by rw [stepEditSelect, hevent]) rfl rfl
  · have hevent : buttonEvent btn = .grayscale := by
      simp only [buttonEvent, h0, h1, h2, Bool.false_eq_true, if_true, if_false]
    exact step_runs_transform 0xC (grayFrame Config.geometry) hm hc hd (by rw [stepEditSelect, hevent]) rfl rfl
  · have hevent : buttonEvent btn = .invert := by
      simp only [buttonEvent, h0, h1, h2, h3, Bool.false_eq_true, if_true, if_false]
    exact step_runs_transform 0xD (invertFrame Config.geometry) hm hc hd (by rw [stepEditSelect, hevent]) rfl rfl

/-- The word of an operation that only the controller's path may issue is an illegal request at the service port. -/
theorem serveRequest_of_controllerOnly {i : Instr} {s : State} (hi : i.wellFormed = true) (hc : controllerOnly i = true)
    (hs : s.ctl ≠ .halted) : serveRequest (encode i) s =
      .next (faulted s 2 (opField (encode i)) (fieldA (encode i)) (fieldB (encode i))) := by
  simp only [serveRequest, hs, false_and, if_false, issue, decode_encode hi, hc, and_self, if_true,
    State.illegalRequest, raiseFault_eq_faulted]
  rfl

/-- On the controller's path every well-formed instruction's word runs it. -/
theorem issue_controller_encode {i : Instr} (hi : i.wellFormed = true) (s : State) :
    issue .controller (encode i) s = exec i s := by
  simp [issue, decode_encode hi]

/-- Settles O6. -/
theorem transformsOnlyOnTheControllersPath : Obligations.TransformsOnlyOnTheControllersPath := by
  unfold Obligations.TransformsOnlyOnTheControllersPath
  intro s hs
  refine ⟨serveRequest_of_controllerOnly (i := .xmir) rfl rfl hs,
    serveRequest_of_controllerOnly (i := .xgry) rfl rfl hs, serveRequest_of_controllerOnly (i := .xinv) rfl rfl hs, ?_⟩
  simp only [List.forall_mem_cons, List.not_mem_nil, false_imp_iff, implies_true, and_true]
  exact ⟨issue_controller_encode rfl s, issue_controller_encode rfl s, issue_controller_encode rfl s⟩

end Sys2Proof.Proofs.Encoding

/-! SUPPORT. The pixel codec (spec/40_pixel_codec.md): the legality of its four operations' words at the service port,
what the operations answer, the laws of its functions, and that a response depends on the word alone. -/

namespace Sys2Proof.Proofs.Codec

open Sys2Proof Sys2Proof.Machine Sys2Proof.Statements Sys2Proof.Proofs.StateRecord Sys2Proof.Proofs.Encoding

/-! ## The words at the service port (spec/30_encoding.md R81, R88, R91) -/

/-- Bits of a field are bits of the word the field is taken from. -/
theorem extract_extract {n : Nat} (x : BitVec n) (s : Nat) {k i m : Nat} (h : i + m ≤ k) :
    (x.extractLsb' s k).extractLsb' i m = x.extractLsb' (s + i) m := by
  refine BitVec.eq_of_getLsbD_eq fun j hj => ?_
  have : i + j < k := by omega
  simp [hj, this, Nat.add_assoc]

theorem fieldA_low (q : Request) : (fieldA q).extractLsb' 0 8 = q.extractLsb' 8 8 := extract_extract q 8 (by decide)

theorem fieldA_high (q : Request) : (fieldA q).extractLsb' 8 8 = q.extractLsb' 16 8 := extract_extract q 8 (by decide)

theorem fieldB_low (q : Request) : (fieldB q).extractLsb' 0 8 = q.extractLsb' 24 8 := extract_extract q 24 (by decide)

theorem fieldB_high (q : Request) : (fieldB q).extractLsb' 8 8 = q.extractLsb' 32 8 := extract_extract q 24 (by decide)

theorem decode_cdec {q : Request} (h : opField q = 0x1) : decode q = accept q (zeroBC q) (.cdec (fieldA q)) := by
  simp [decode, h]

theorem decode_cenc {q : Request} (h : opField q = 0x2) :
    decode q = accept q ((fieldB q).extractLsb' 8 8 = 0 ∧ fieldC q = 0)
      (.cenc ((fieldA q).extractLsb' 0 8) ((fieldA q).extractLsb' 8 8) ((fieldB q).extractLsb' 0 8)) := by
  simp [decode, h]

theorem decode_cx5 {q : Request} (h : opField q = 0x3) :
    decode q = accept q ((fieldA q).extractLsb' 5 11 = 0 ∧ zeroBC q) (.cx5 (fieldA q)) := by
  simp [decode, h]

theorem decode_cx6 {q : Request} (h : opField q = 0x4) :
    decode q = accept q ((fieldA q).extractLsb' 6 10 = 0 ∧ zeroBC q) (.cx6 (fieldA q)) := by
  simp [decode, h]

theorem portServes_cdec :
    PortServes 0x1 (fun q => q.extractLsb' 24 16 = 0 ∧ q.extractLsb' 40 16 = 0) (fun q => .cdec (q.extractLsb' 8 16)) :=
  portServes_of_accept (fun _ => decode_cdec) (fun _ => rfl) zeroBC_iff

theorem portServes_cenc :
    PortServes 0x2 (fun q => q.extractLsb' 32 8 = 0 ∧ q.extractLsb' 40 16 = 0)
      (fun q => .cenc (q.extractLsb' 8 8) (q.extractLsb' 16 8) (q.extractLsb' 24 8)) :=
  portServes_of_accept (fun q h => by rw [decode_cenc h, fieldA_low, fieldA_high, fieldB_low]) (fun _ => rfl)
    (fun q => by rw [decide_eq_true_iff, fieldB_high]; rfl)

theorem portServes_cx5 :
    PortServes 0x3 (fun q => q.extractLsb' 13 11 = 0 ∧ q.extractLsb' 24 16 = 0 ∧ q.extractLsb' 40 16 = 0)
      (fun q => .cx5 (q.extractLsb' 8 16)) :=
  portServes_of_accept (fun _ => decode_cx5) (fun _ => rfl)
    (fun q => by rw [decide_eq_true_iff, zeroBC_iff, fieldA, extract_extract q 8 (by decide)]; rfl)

theorem portServes_cx6 :
    PortServes 0x4 (fun q => q.extractLsb' 14 10 = 0 ∧ q.extractLsb' 24 16 = 0 ∧ q.extractLsb' 40 16 = 0)
      (fun q => .cx6 (q.extractLsb' 8 16)) :=
  portServes_of_accept (fun _ => decode_cx6) (fun _ => rfl)
    (fun q => by rw [decide_eq_true_iff, zeroBC_iff, fieldA, extract_extract q 8 (by decide)]; rfl)

/-! ## The answers (R116 to R119) -/

/-- rdata of CDEC as a number: its channels lie in bytes of their own (spec/30_encoding.md R96). -/
theorem channelData_toNat {r g b : Nat} (hr : r < 256) (hg : g < 256) (hb : b < 256) :
    (channelData r g b).toNat = b * 65536 + g * 256 + r := by
  have hlayout : b <<< 16 ||| g <<< 8 ||| r = b * 65536 + g * 256 + r := by
    rw [show b <<< 16 = b <<< 8 <<< 8 from Nat.shiftLeft_add b 8 8, ← Nat.shiftLeft_or_distrib,
      ← Nat.shiftLeft_add_eq_or_of_lt (i := 8) hr, ← Nat.shiftLeft_add_eq_or_of_lt (i := 8) hg]
    simp only [Nat.shiftLeft_eq]
    omega
  rw [channelData, hlayout, BitVec.toNat_ofNat]
  omega

theorem exec_cdec (p : Pixel) (s : State) : exec (.cdec p) s = .next (answered s
    (0#11 ++ p.extractLsb' 0 5 ++ 0#2 ++ p.extractLsb' 5 6 ++ 0#3 ++ p.extractLsb' 11 5)) := by
  suffices h : channelData (decodePixel p).r (decodePixel p).g (decodePixel p).b
      = 0#11 ++ p.extractLsb' 0 5 ++ 0#2 ++ p.extractLsb' 5 6 ++ 0#3 ++ p.extractLsb' 11 5 by
    rw [← h]; rfl
  have hp := p.isLt
  have hr := decodePixel_r_lt p
  have hg := decodePixel_g_lt p
  have hb := decodePixel_b_lt p
  apply BitVec.eq_of_toNat_eq
  rw [channelData_toNat (by omega) (by omega) (by omega), decodePixel_r, decodePixel_g, decodePixel_b]
  simp only [toNat_append_add, extract_toNat, BitVec.toNat_ofNat]
  omega

theorem exec_cenc (r g b : BitVec 8) (s : State) : exec (.cenc r g b) s = .next (answered s
    (0#16 ++ r.extractLsb' 0 5 ++ g.extractLsb' 0 6 ++ b.extractLsb' 0 5)) := by
  suffices h : (encodePixel r.toNat g.toNat b.toNat).setWidth 32
      = 0#16 ++ r.extractLsb' 0 5 ++ g.extractLsb' 0 6 ++ b.extractLsb' 0 5 by
    rw [← h]; rfl
  apply BitVec.eq_of_toNat_eq
  rw [BitVec.toNat_setWidth, encodePixel_toNat]
  simp only [toNat_append_add, extract_toNat, BitVec.toNat_ofNat]
  omega

theorem exec_cx5 {v : Operand} (hv : v.toNat < 32) (s : State) :
    exec (.cx5 v) s = .next (answered s (0#24 ++ v.extractLsb' 0 5 ++ v.extractLsb' 2 3)) := by
  have h : BitVec.ofNat 32 (to8 v.toNat 5) = 0#24 ++ v.extractLsb' 0 5 ++ v.extractLsb' 2 3 := by
    have hfits : v.toNat * 8 + v.toNat / 4 < 2 ^ 32 := by omega
    apply BitVec.eq_of_toNat_eq
    rw [to8_five hv, BitVec.toNat_ofNat, Nat.mod_eq_of_lt hfits]
    simp only [toNat_append_add, extract_toNat, BitVec.toNat_ofNat]
    omega
  rw [← h]
  exact if_pos hv

theorem exec_cx6 {v : Operand} (hv : v.toNat < 64) (s : State) :
    exec (.cx6 v) s = .next (answered s (0#24 ++ v.extractLsb' 0 6 ++ v.extractLsb' 4 2)) := by
  have h : BitVec.ofNat 32 (to8 v.toNat 6) = 0#24 ++ v.extractLsb' 0 6 ++ v.extractLsb' 4 2 := by
    have hfits : v.toNat * 4 + v.toNat / 16 < 2 ^ 32 := by omega
    apply BitVec.eq_of_toNat_eq
    rw [to8_six hv, BitVec.toNat_ofNat, Nat.mod_eq_of_lt hfits]
    simp only [toNat_append_add, extract_toNat, BitVec.toNat_ofNat]
    omega
  rw [← h]
  exact if_pos hv

theorem exec_cx5_out_of_range {v : Operand} (hv : 32 ≤ v.toNat) (s : State) :
    exec (.cx5 v) s = .next (faulted s 2 0x3 v 0) :=
  (if_neg (Nat.not_lt.mpr hv)).trans (congrArg Host.Outcome.next (raiseFault_eq_faulted s .illegalRequest 0x3 v 0))

theorem exec_cx6_out_of_range {v : Operand} (hv : 64 ≤ v.toNat) (s : State) :
    exec (.cx6 v) s = .next (faulted s 2 0x4 v 0) :=
  (if_neg (Nat.not_lt.mpr hv)).trans (congrArg Host.Outcome.next (raiseFault_eq_faulted s .illegalRequest 0x4 v 0))

/-- Settles O7. -/
theorem cdecUnpacksThePixel : Obligations.CdecUnpacksThePixel := by
  unfold Obligations.CdecUnpacksThePixel
  exact ⟨portServes_cdec, exec_cdec⟩

/-- Settles O8. -/
theorem cencPacksTheLowBits : Obligations.CencPacksTheLowBits := by
  unfold Obligations.CencPacksTheLowBits
  exact ⟨portServes_cenc, exec_cenc⟩

/-- Settles O9. -/
theorem cx5ReplicatesTheTopBits : Obligations.Cx5ReplicatesTheTopBits := by
  unfold Obligations.Cx5ReplicatesTheTopBits
  exact ⟨portServes_cx5, fun _ s => ⟨fun hv => exec_cx5 hv s, fun hv => exec_cx5_out_of_range hv s⟩⟩

/-- Settles O10. -/
theorem cx6ReplicatesTheTopBits : Obligations.Cx6ReplicatesTheTopBits := by
  unfold Obligations.Cx6ReplicatesTheTopBits
  exact ⟨portServes_cx6, fun _ s => ⟨fun hv => exec_cx6 hv s, fun hv => exec_cx6_out_of_range hv s⟩⟩

/-! ## The codec laws (R115) -/

theorem encodePixel_decodePixel (p : Pixel) :
    encodePixel (decodePixel p).r (decodePixel p).g (decodePixel p).b = p := by
  have := p.isLt
  apply BitVec.eq_of_toNat_eq
  rw [encodePixel_toNat, decodePixel_r, decodePixel_g, decodePixel_b]
  omega

theorem decodePixel_encodePixel (r g b : Nat) : decodePixel (encodePixel r g b) = ⟨r &&& 31, g &&& 63, b &&& 31⟩ := by
  have hmask5 (n : Nat) : n &&& 31 = n % 32 := Nat.and_two_pow_sub_one_eq_mod n 5
  have hmask6 (n : Nat) : n &&& 63 = n % 64 := Nat.and_two_pow_sub_one_eq_mod n 6
  have hr : (decodePixel (encodePixel r g b)).r = r % 32 := by rw [decodePixel_r, encodePixel_toNat]; omega
  have hg : (decodePixel (encodePixel r g b)).g = g % 64 := by rw [decodePixel_g, encodePixel_toNat]; omega
  have hb : (decodePixel (encodePixel r g b)).b = b % 32 := by rw [decodePixel_b, encodePixel_toNat]; omega
  rw [hmask5, hmask6, hmask5, ← hr, ← hg, ← hb]

theorem to8_five_top {v : Nat} (hv : v < 32) : to8 v 5 >>> 3 = v := by
  rw [to8_five hv, Nat.shiftRight_eq_div_pow]
  omega

theorem to8_six_top {v : Nat} (hv : v < 64) : to8 v 6 >>> 2 = v := by
  rw [to8_six hv, Nat.shiftRight_eq_div_pow]
  omega

theorem to8_five_strict {v w : Nat} (hvw : v < w) (hw : w < 32) : to8 v 5 < to8 w 5 := by
  rw [to8_five (hvw.trans hw), to8_five hw]
  omega

theorem to8_six_strict {v w : Nat} (hvw : v < w) (hw : w < 64) : to8 v 6 < to8 w 6 := by
  rw [to8_six (hvw.trans hw), to8_six hw]
  omega

/-- Settles O11. -/
theorem codecLaws : Obligations.CodecLaws := by
  unfold Obligations.CodecLaws
  exact ⟨encodePixel_decodePixel, decodePixel_encodePixel, fun _ => to8_five_top, fun _ => to8_six_top, by decide,
    fun _ _ => to8_five_strict, fun _ _ => to8_six_strict⟩

/-! ## A response depends on the word alone (R120) -/

/-- The operation codes of the codec (spec/30_encoding.md R88), as O12 lists them. -/
abbrev codecOps : List Code := [0x1#4, 0x2#4, 0x3#4, 0x4#4]

theorem opCode_of_decode {q : Request} {i : Instr} (h : decode q = .ok i) : opCode i = opField q := by
  rw [← (encode_of_decode h).2]
  cases i <;> exact (opField_word ..).symm

/-- A well-formed codec operation is for either requester, and its answer is the same in every state. -/
theorem codec_answers {i : Instr} (hop : opCode i ∈ codecOps) (hwf : i.wellFormed = true) :
    controllerOnly i = false ∧ ∃ rdata, ∀ s, exec i s = .next (answered s rdata) := by
  cases i with
  | cdec p => exact ⟨rfl, _, exec_cdec p⟩
  | cenc r g b => exact ⟨rfl, _, exec_cenc r g b⟩
  | cx5 v => exact ⟨rfl, _, exec_cx5 (of_decide_eq_true hwf)⟩
  | cx6 v => exact ⟨rfl, _, exec_cx6 (of_decide_eq_true hwf)⟩
  | _ => simp [opCode] at hop

/-- Outside HALTED a codec word gets one response: its operation's, or that of an illegal request. -/
theorem codec_response {q : Request} (hq : opField q ∈ codecOps) :
    ∃ r : Response, ∀ s : State, s.ctl ≠ .halted → ∃ t, serveRequest q s = .next t ∧ t.resp = some r := by
  cases hd : decode q with
  | ok i =>
    obtain ⟨hpath, rdata, hexec⟩ := codec_answers (opCode_of_decode hd ▸ hq) (encode_of_decode hd).1
    exact ⟨⟨0, rdata⟩, fun s hs => ⟨_, (serveRequest_of_decode_ok hd hpath (.inl hs)).trans (hexec s), rfl⟩⟩
  | error e => exact ⟨⟨2, 0⟩, fun s hs => ⟨_, serveRequest_of_decode_error hd hs, rfl⟩⟩

theorem opField_of_isStat {q : Request} (h : isStat q = true) : opField q = 0xE := by
  unfold isStat at h
  split at h
  case h_1 sel hd => exact (opCode_of_decode hd).symm
  case h_2 => cases h

/-- HALTED accepts STAT only (spec/60_exceptions.md R236). -/
theorem serveRequest_halted {q : Request} {s : State} (hs : s.ctl = .halted) (hq : opField q ≠ 0xE) :
    serveRequest q s = .next s :=
  if_pos ⟨hs, Bool.eq_false_iff.mpr (mt opField_of_isStat hq)⟩

/-- Settles O12. -/
theorem codecIsStateless : Obligations.CodecIsStateless := by
  unfold Obligations.CodecIsStateless
  intro q hq
  have hstat : ∀ op ∈ codecOps, op ≠ 0xE#4 := by decide
  exact ⟨codec_response hq, fun s hs hresp => ⟨s, serveRequest_halted hs (hstat _ hq), hresp⟩⟩

end Sys2Proof.Proofs.Codec

/-! SUPPORT. The framebuffer accessor (spec/41_framebuffer_accessor.md): the words and the answers of its six operations,
the Get and Set laws, and that no access reaches a padding slot. -/

namespace Sys2Proof.Proofs.Accessor

open Sys2Proof Sys2Proof.Machine Sys2Proof.Statements
open Sys2Proof.Proofs.StateRecord Sys2Proof.Proofs.MemoryRegion Sys2Proof.Proofs.Encoding

/-! ## The words at the service port (spec/30_encoding.md R81, R88, R91) -/

theorem decode_fget {q : Request} (h : opField q = 0x5) :
    decode q = accept q (fieldC q = 0) (.fget (fieldA q) (fieldB q)) := by
  simp [decode, h]

theorem decode_fset {q : Request} (h : opField q = 0x6) :
    decode q = accept q true (.fset (fieldA q) (fieldB q) (fieldC q)) := by
  simp [decode, h]

theorem decode_fsetc {q : Request} (h : opField q = 0x7) :
    decode q = accept q true (.fsetc (fieldA q) (fieldB q) (fieldC q)) := by
  simp [decode, h]

theorem decode_fwid {q : Request} (h : opField q = 0x8) : decode q = accept q (zeroABC q) .fwid := by
  simp [decode, h]

theorem decode_fhgt {q : Request} (h : opField q = 0x9) : decode q = accept q (zeroABC q) .fhgt := by
  simp [decode, h]

theorem decode_fstr {q : Request} (h : opField q = 0xA) : decode q = accept q (zeroABC q) .fstr := by
  simp [decode, h]

theorem portServes_fget :
    PortServes 0x5 (fun q => q.extractLsb' 40 16 = 0) (fun q => .fget (q.extractLsb' 8 16) (q.extractLsb' 24 16)) :=
  portServes_of_accept (fun _ => decode_fget) (fun _ => rfl) (fun _ => decide_eq_true_iff)

theorem portServes_fset :
    PortServes 0x6 (fun _ => True) (fun q => .fset (q.extractLsb' 8 16) (q.extractLsb' 24 16) (q.extractLsb' 40 16)) :=
  portServes_of_accept (fun _ => decode_fset) (fun _ => rfl) (fun _ => iff_of_true rfl trivial)

theorem portServes_fsetc :
    PortServes 0x7 (fun _ => True)
      (fun q => .fsetc (q.extractLsb' 8 16) (q.extractLsb' 24 16) (q.extractLsb' 40 16)) :=
  portServes_of_accept (fun _ => decode_fsetc) (fun _ => rfl) (fun _ => iff_of_true rfl trivial)

/-- The three geometry reads have the format without operands (R81). -/
theorem portServes_of_zeroABC {op : Code} {i : Instr} (hd : ∀ q, opField q = op → decode q = accept q (zeroABC q) i)
    (hi : controllerOnly i = false) :
    PortServes op (fun q => q.extractLsb' 8 16 = 0 ∧ q.extractLsb' 24 16 = 0 ∧ q.extractLsb' 40 16 = 0)
      (fun _ => i) :=
  portServes_of_accept hd (fun _ => hi) zeroABC_iff

/-- Settles O16. -/
theorem geometryReads : Obligations.GeometryReads := by
  unfold Obligations.GeometryReads
  exact ⟨portServes_of_zeroABC (fun _ => decode_fwid) rfl, portServes_of_zeroABC (fun _ => decode_fhgt) rfl,
    portServes_of_zeroABC (fun _ => decode_fstr) rfl, fun _ => ⟨rfl, rfl, rfl⟩⟩

/-! ## Get, Set and SetClip on operand fields (R131 to R134) -/

section Fields

variable {x y : Operand} (m : Memory) (p : Pixel)

theorem slotIndex_sint16 (h : onFrame x y) :
    slotIndex Config.geometry (sint16 x).toNat (sint16 y).toNat = y.toNat * 512 + x.toNat := by
  obtain ⟨hx, -, hy, -⟩ := h
  rw [toNat_sint16 hx, toNat_sint16 hy]
  rfl

theorem getPixel_of_onFrame (h : onFrame x y) :
    getPixel Config.geometry m (sint16 x) (sint16 y) = .ok (memRead m (y.toNat * 512 + x.toNat)) := by
  rw [getPixel, if_pos ((inBounds_sint16 x y).mpr h), slotIndex_sint16 h]

theorem getPixel_of_not_onFrame (h : ¬ onFrame x y) :
    getPixel Config.geometry m (sint16 x) (sint16 y) = .error .outOfBounds :=
  if_neg (mt (inBounds_sint16 x y).mp h)

theorem setPixel_of_onFrame (h : onFrame x y) :
    setPixel Config.geometry m (sint16 x) (sint16 y) p = .ok (memWrite m (y.toNat * 512 + x.toNat) p) := by
  rw [setPixel, if_pos ((inBounds_sint16 x y).mpr h), slotIndex_sint16 h]

theorem setPixel_of_not_onFrame (h : ¬ onFrame x y) :
    setPixel Config.geometry m (sint16 x) (sint16 y) p = .error .outOfBounds :=
  if_neg (mt (inBounds_sint16 x y).mp h)

theorem setClip_of_onFrame (h : onFrame x y) :
    setClip Config.geometry m (sint16 x) (sint16 y) p = memWrite m (y.toNat * 512 + x.toNat) p := by
  rw [setClip, if_pos ((inBounds_sint16 x y).mpr h), slotIndex_sint16 h]

theorem setClip_of_not_onFrame (h : ¬ onFrame x y) : setClip Config.geometry m (sint16 x) (sint16 y) p = m :=
  if_neg (mt (inBounds_sint16 x y).mp h)

end Fields

/-! ## What the operations answer (R135 to R137) -/

section Operations

variable {x y : Operand} (p : Pixel) (s : State)

theorem exec_fget_of_onFrame (h : onFrame x y) :
    exec (.fget x y) s = .next (answered s (0#16 ++ memRead s.fb (y.toNat * 512 + x.toNat))) := by
  simp only [exec, execFget, getPixel_of_onFrame _ h, BitVec.setWidth_eq_append (show 16 ≤ 32 by decide)]
  rfl

theorem exec_fget_of_not_onFrame (h : ¬ onFrame x y) : exec (.fget x y) s = .next (faulted s 1 0x5 x y) := by
  simp only [exec, execFget, getPixel_of_not_onFrame _ h, raiseFault_eq_faulted]
  rfl

theorem exec_fset_of_onFrame (h : onFrame x y) : exec (.fset x y p) s =
    .next ((s.withFrame (memWrite s.fb (y.toNat * 512 + x.toNat) p)).respond statusOk 0) := by
  simp only [exec, execFset, setPixel_of_onFrame _ _ h]

theorem exec_fset_of_not_onFrame (h : ¬ onFrame x y) : exec (.fset x y p) s = .next (faulted s 1 0x6 x y) := by
  simp only [exec, execFset, setPixel_of_not_onFrame _ _ h, raiseFault_eq_faulted]
  rfl

theorem exec_fsetc_of_onFrame (h : onFrame x y) : exec (.fsetc x y p) s =
    .next ((s.withFrame (memWrite s.fb (y.toNat * 512 + x.toNat) p)).respond statusOk 0) := by
  simp only [exec, execFsetc, setClip_of_onFrame _ _ h]

theorem exec_fsetc_of_not_onFrame (h : ¬ onFrame x y) : exec (.fsetc x y p) s = .next (answered s 0) := by
  simp only [exec, execFsetc, setClip_of_not_onFrame _ _ h]
  rfl

end Operations

/-- An operation that responds OK with a new frame stores it as `StoresFrame` says, if the slots not stored read as
before: then so do their bytes. -/
theorem storesFrame_of_exec {i : Instr} {s : State} {m : Memory} {stored : Nat → Prop} {f : Nat → Pixel}
    (hx : exec i s = .next ((s.withFrame m).respond statusOk 0)) (hread : ∀ j, memRead m j = f j)
    (hkept : ∀ j, ¬ stored j → f j = memRead s.fb j) : StoresFrame i s stored f :=
  ⟨_, hx, rfl, hread, fun k hk => byte_eq_of_memRead_eq ((hread (k / 2)).trans (hkept (k / 2) hk))⟩

/-- An operation that writes one slot of the frame. -/
theorem storesFrame_of_memWrite {i : Instr} {s : State} {slot : Nat} {p : Pixel}
    (hx : exec i s = .next ((s.withFrame (memWrite s.fb slot p)).respond statusOk 0)) :
    StoresFrame i s (fun j => j = slot) (fun j => if j = slot then p else memRead s.fb j) :=
  storesFrame_of_exec hx (fun j => memRead_memWrite s.fb slot j p) (fun _ hj => if_neg hj)

/-- Settles O13. -/
theorem fgetReadsAVisiblePixel : Obligations.FgetReadsAVisiblePixel := by
  unfold Obligations.FgetReadsAVisiblePixel
  exact ⟨portServes_fget, fun _ _ s => ⟨exec_fget_of_onFrame s, exec_fget_of_not_onFrame s⟩⟩

/-- Settles O14. -/
theorem fsetWritesAVisiblePixel : Obligations.FsetWritesAVisiblePixel := by
  unfold Obligations.FsetWritesAVisiblePixel
  exact ⟨portServes_fset, fun _ _ p s =>
    ⟨fun h => storesFrame_of_memWrite (exec_fset_of_onFrame p s h), exec_fset_of_not_onFrame p s⟩⟩

/-- Settles O15. -/
theorem fsetcClips : Obligations.FsetcClips := by
  unfold Obligations.FsetcClips
  exact ⟨portServes_fsetc, fun _ _ p s =>
    ⟨fun h => storesFrame_of_memWrite (exec_fsetc_of_onFrame p s h), exec_fsetc_of_not_onFrame p s⟩⟩

/-! ## The Get and Set laws (R142) -/

/-- FGET after FSET on a visible pixel gives the pixel written. -/
theorem exec_fget_after_fset {x y : Operand} (p : Pixel) (s : State) (h : onFrame x y) :
    ∃ t, exec (.fset x y p) s = .next t ∧ exec (.fget x y) t = .next (answered t (0#16 ++ p)) ∧
      ∀ j, j ≠ y.toNat * 512 + x.toNat → memRead t.fb j = memRead s.fb j := by
  refine ⟨_, exec_fset_of_onFrame p s h, ?_, fun j hj => memRead_memWrite_other hj s.fb p⟩
  rw [exec_fget_of_onFrame _ h, State.respond_fb, State.withFrame_fb, memRead_memWrite_self]

/-- Settles O17. -/
theorem getSetLaws : Obligations.GetSetLaws := by
  unfold Obligations.GetSetLaws
  refine ⟨fun x y x' y' hx hx' h => by omega, fun x y p s => exec_fget_after_fset p s, fun x y p s h => ?_⟩
  exact ⟨⟨_, exec_fget_of_not_onFrame s h, rfl, rfl⟩, ⟨_, exec_fset_of_not_onFrame p s h, rfl, rfl⟩⟩

/-! ## Padding (R141) -/

/-- The slot of an in-bounds coordinate lies in a visible column. -/
theorem slotIndex_column_lt {x y : Int} (h : inBounds Config.geometry x y = true) :
    slotIndex Config.geometry x.toNat y.toNat % 512 < 320 := by
  have hx := (inBounds_geometry h).1
  have hslot : slotIndex Config.geometry x.toNat y.toNat = y.toNat * 512 + x.toNat := rfl
  omega

theorem getPixel_congr {m n : Memory} (x y : Int) (h : ∀ j, j % 512 < 320 → memRead m j = memRead n j) :
    getPixel Config.geometry m x y = getPixel Config.geometry n x y := by
  unfold getPixel
  split_ifs with hin
  · rw [h _ (slotIndex_column_lt hin)]
  · rfl

theorem memRead_setClip_padding (m : Memory) (x y : Int) (p : Pixel) {j : Nat} (hj : 320 ≤ j % 512) :
    memRead (setClip Config.geometry m x y p) j = memRead m j := by
  unfold setClip
  split_ifs with hin
  · have hslot := slotIndex_column_lt hin
    exact memRead_memWrite_other (by rintro rfl; omega) m p
  · rfl

/-- A Set that succeeds does what SetClip does. -/
theorem setClip_of_setPixel_ok {g : Geometry} {m n : Memory} {x y : Int} {p : Pixel}
    (h : setPixel g m x y p = .ok n) : setClip g m x y p = n := by
  unfold setPixel at h
  unfold setClip
  split_ifs at h ⊢
  exact Except.ok.inj h

/-- Settles O18: the slot an access computes lies in a visible column. -/
theorem accessorNeverTouchesPadding : Obligations.AccessorNeverTouchesPadding := by
  unfold Obligations.AccessorNeverTouchesPadding
  refine ⟨fun m n x y => getPixel_congr x y, fun m n x y p h j hj => ?_, fun m x y p j => memRead_setClip_padding m x y p⟩
  rw [← setClip_of_setPixel_ok h, memRead_setClip_padding m x y p hj]

end Sys2Proof.Proofs.Accessor

/-! SUPPORT. The three whole-frame transforms in EDIT_SELECT (spec/42_transform_engine.md R162 to R164): what every slot
reads as after each, and the two involutions. -/

namespace Sys2Proof.Proofs.FrameTransforms

open Sys2Proof Sys2Proof.Machine Sys2Proof.Statements
open Sys2Proof.Proofs.Encoding Sys2Proof.Proofs.Accessor

/-! ## Every slot after a walk -/

theorem slotIndex_mod_div (j : Nat) : slotIndex Config.geometry (j % 512) (j / 512) = j := by
  simp only [slotIndex, Config.geometry]
  omega

theorem slotIndex_ne_of_not_visible {j : Nat} (hj : ¬ visible j) (x y : Nat) (hx : x < Config.geometry.width)
    (hy : y < Config.geometry.height) : slotIndex Config.geometry x y ≠ j := by
  rintro rfl
  simp only [slotIndex, Config.geometry, visible] at hx hy hj
  omega

theorem memRead_mapFrame_of_visible (f : Pixel → Pixel) (m : Memory) {j : Nat} (hj : visible j) :
    memRead ((frameOrder Config.geometry).foldl (mapAt Config.geometry f) m) j = f (memRead m j) := by
  have h := memRead_mapFrame_visible (g := Config.geometry) (by decide) f m hj.1 hj.2
  rwa [slotIndex_mod_div] at h

theorem memRead_mapFrame_of_not_visible (f : Pixel → Pixel) (m : Memory) {j : Nat} (hj : ¬ visible j) :
    memRead ((frameOrder Config.geometry).foldl (mapAt Config.geometry f) m) j = memRead m j :=
  memRead_mapFrame_other (by decide) f m (slotIndex_ne_of_not_visible hj)

/-- The slot of the pixel mirrored in its row. -/
def mirrorSlot (j : Nat) : Nat := j / 512 * 512 + (319 - j % 512)

theorem visible_mirrorSlot {j : Nat} (hj : visible j) : visible (mirrorSlot j) := by
  simp only [visible, mirrorSlot] at *
  omega

theorem mirrorSlot_mirrorSlot {j : Nat} (hj : visible j) : mirrorSlot (mirrorSlot j) = j := by
  simp only [visible, mirrorSlot] at *
  omega

theorem memRead_mirrorFrame_of_visible (m : Memory) {j : Nat} (hj : visible j) :
    memRead (mirrorFrame Config.geometry m) j = memRead m (mirrorSlot j) := by
  have h := memRead_mirrorFrame_visible (g := Config.geometry) (by decide) m hj.1 hj.2
  rwa [slotIndex_mod_div] at h

theorem memRead_mirrorFrame_of_not_visible (m : Memory) {j : Nat} (hj : ¬ visible j) :
    memRead (mirrorFrame Config.geometry m) j = memRead m j :=
  memRead_mirrorFrame_other m (slotIndex_ne_of_not_visible hj)

/-! ## The operations -/

/-- A transform whose walk maps the visible slots and keeps the others stores the frame as `StoresFrame` says. -/
theorem storesFrame_of_transform {i : Instr} {op : Code} {run : Memory → Memory} {f : Nat → Pixel} {s : State}
    (hx : exec i s = .next (transform op run s)) (hc : s.ctl = .editSelect)
    (hmapped : ∀ j, visible j → memRead (run s.fb) j = f j)
    (hkept : ∀ j, ¬ visible j → memRead (run s.fb) j = memRead s.fb j) :
    StoresFrame i s visible (fun j => if j % 512 < 320 ∧ j / 512 < 240 then f j else memRead s.fb j) := by
  rw [transform_editSelect hc] at hx
  refine storesFrame_of_exec hx (fun j => ?_) fun j hj => if_neg hj
  by_cases hj : visible j
  · rw [hmapped j hj]; exact (if_pos hj).symm
  · rw [hkept j hj]; exact (if_neg hj).symm

/-- A transform whose walk is an involution on every slot leaves the frame as it was when run twice. -/
theorem exec_transform_twice {i : Instr} {op : Code} {run : Memory → Memory}
    (hx : ∀ s, exec i s = .next (transform op run s)) (hrun : ∀ m j, memRead (run (run m)) j = memRead m j) {s : State}
    (hc : s.ctl = .editSelect) :
    ∃ t u, exec i s = .next t ∧ exec i t = .next u ∧ ∀ j, memRead u.fb j = memRead s.fb j := by
  have once {u : State} (hu : u.ctl = .editSelect) :
      exec i u = .next ((u.withFrame (run u.fb)).respond statusOk 0) := by
    rw [hx, transform_editSelect hu]
  exact ⟨_, _, once hc, once (by simpa using hc), hrun s.fb⟩

theorem exec_xmir (s : State) : exec .xmir s = .next (transform 0xB (mirrorFrame Config.geometry) s) := rfl

theorem exec_xgry (s : State) : exec .xgry s = .next (transform 0xC (grayFrame Config.geometry) s) := rfl

theorem exec_xinv (s : State) : exec .xinv s = .next (transform 0xD (invertFrame Config.geometry) s) := rfl

/-! ## XMIR (R162, R166) -/

theorem memRead_mirrorFrame_twice (m : Memory) (j : Nat) :
    memRead (mirrorFrame Config.geometry (mirrorFrame Config.geometry m)) j = memRead m j := by
  by_cases hj : visible j
  · rw [memRead_mirrorFrame_of_visible _ hj, memRead_mirrorFrame_of_visible _ (visible_mirrorSlot hj),
      mirrorSlot_mirrorSlot hj]
  · rw [memRead_mirrorFrame_of_not_visible _ hj, memRead_mirrorFrame_of_not_visible _ hj]

/-- Settles O19. -/
theorem xmirMirrorsTheFrame : Obligations.XmirMirrorsTheFrame := by
  unfold Obligations.XmirMirrorsTheFrame
  refine ⟨fun s hc => ?_, fun s => exec_transform_twice exec_xmir memRead_mirrorFrame_twice⟩
  exact storesFrame_of_transform (exec_xmir s) hc (fun j => memRead_mirrorFrame_of_visible s.fb)
    (fun j => memRead_mirrorFrame_of_not_visible s.fb)

/-! ## XGRY (R163) -/

/-- gray8 in plain arithmetic, as `Statements.gray` computes it. -/
theorem gray8_eq (p : Pixel) : gray8 p =
    ((p.toNat / 2048 * 8 + p.toNat / 2048 / 4) + (p.toNat / 32 % 64 * 4 + p.toNat / 32 % 64 / 16)
      + (p.toNat % 32 * 8 + p.toNat % 32 / 4)) / 3 := by
  rw [gray8, to8_five (decodePixel_r_lt p), to8_six (decodePixel_g_lt p), to8_five (decodePixel_b_lt p),
    decodePixel_r, decodePixel_g, decodePixel_b]

/-- Below 256 the three shifted channels keep to their widths, so no bit is lost. -/
theorem grayPixelOf_eq {k : Nat} (hk : k < 256) :
    grayPixelOf k = BitVec.ofNat 16 (k / 8 * 2048 + k / 4 * 32 + k / 8) := by
  apply BitVec.eq_of_toNat_eq
  rw [grayPixelOf, encodePixel_toNat, Nat.shiftRight_eq_div_pow, Nat.shiftRight_eq_div_pow, BitVec.toNat_ofNat,
    Nat.mod_eq_of_lt (show k / 2 ^ 3 < 32 by omega), Nat.mod_eq_of_lt (show k / 2 ^ 2 < 64 by omega)]
  omega

theorem grayPixel_eq_gray (p : Pixel) : grayPixel p = gray p := by
  rw [grayPixel, grayPixelOf_eq (gray8_lt p), gray8_eq]
  rfl

/-- Settles O21. -/
theorem xgryGraysTheFrame : Obligations.XgryGraysTheFrame := by
  unfold Obligations.XgryGraysTheFrame
  intro s hc
  exact storesFrame_of_transform (exec_xgry s) hc
    (fun j hj => (memRead_mapFrame_of_visible grayPixel s.fb hj).trans (grayPixel_eq_gray _))
    (fun j => memRead_mapFrame_of_not_visible grayPixel s.fb)

/-! ## XINV (R164, R167) -/

/-- Complementing each channel in its width complements the pixel. -/
theorem invertPixel_eq_xor (p : Pixel) : invertPixel p = p ^^^ 0xFFFF#16 := by
  have hp := p.isLt
  have hnot : p ^^^ 0xFFFF#16 = ~~~ p := BitVec.xor_allOnes
  apply BitVec.eq_of_toNat_eq
  rw [hnot, BitVec.toNat_not, invertPixel, encodePixel_toNat, decodePixel_r, decodePixel_g, decodePixel_b]
  omega

theorem invertPixel_invertPixel (p : Pixel) : invertPixel (invertPixel p) = p := by
  rw [invertPixel_eq_xor, invertPixel_eq_xor, BitVec.xor_assoc, BitVec.xor_self, BitVec.xor_zero]

theorem memRead_invertFrame_twice (m : Memory) (j : Nat) :
    memRead (invertFrame Config.geometry (invertFrame Config.geometry m)) j = memRead m j := by
  unfold invertFrame
  by_cases hj : visible j
  · rw [memRead_mapFrame_of_visible _ _ hj, memRead_mapFrame_of_visible _ _ hj, invertPixel_invertPixel]
  · rw [memRead_mapFrame_of_not_visible _ _ hj, memRead_mapFrame_of_not_visible _ _ hj]

/-- Settles O24. -/
theorem xinvComplementsTheFrame : Obligations.XinvComplementsTheFrame := by
  unfold Obligations.XinvComplementsTheFrame
  refine ⟨invertPixel_eq_xor, fun s hc => ?_, fun s => exec_transform_twice exec_xinv memRead_invertFrame_twice⟩
  exact storesFrame_of_transform (exec_xinv s) hc
    (fun j hj => (memRead_mapFrame_of_visible invertPixel s.fb hj).trans (invertPixel_eq_xor _))
    (fun j => memRead_mapFrame_of_not_visible invertPixel s.fb)

end Sys2Proof.Proofs.FrameTransforms

/-! SUPPORT. The overlay renderer (spec/43_capture_controller.md R199, R200): the text it draws, the points it inks and
the set M, what each of its moves does, and that its moves for one overlay ink that set only. -/

namespace Sys2Proof.Proofs.Overlay

open Sys2Proof Sys2Proof.Machine Sys2Proof.Safety Sys2Proof.Statements
open Sys2Proof.Proofs.StateRecord Sys2Proof.Proofs.MemoryRegion Sys2Proof.Proofs.Accessor

/-! ## The text -/

theorem digitChar_eq {d : Nat} (h : d < 10) : Nat.digitChar d = Char.ofNat (48 + d) :=
  (show ∀ d < 10, Nat.digitChar d = Char.ofNat (48 + d) by decide) d h

theorem twoDigits_eq_twoPlaces {n : Nat} (h : n < 100) : twoDigits n = twoPlaces n := by
  have htens : n / 10 < 10 := by omega
  rw [twoDigits, twoPlaces, Nat.mod_eq_of_lt htens, digitChar_eq htens, digitChar_eq (Nat.mod_lt n (by decide))]

theorem decimal_of_lt {n : Nat} (h : n < 10) : decimal n = [Char.ofNat (48 + n)] := by
  simp [decimal, h, Nat.mod_eq_of_lt h]

/-- The digits of a number are those of its tenth and then its last one. -/
theorem decimal_of_ge {n : Nat} (h : 10 ≤ n) (hmax : n < 100000) :
    decimal n = decimal (n / 10) ++ [Char.ofNat (48 + n % 10)] := by
  have hone : ¬ n < 10 := by omega
  have htwo : n / 10 < 10 ↔ n < 100 := by omega
  have hthree : n / 10 < 100 ↔ n < 1000 := by omega
  have hfour : n / 10 < 1000 ↔ n < 10000 := by omega
  have hfive : n / 10 < 10000 := by omega
  simp only [decimal, hone, htwo, hthree, hfour, hfive, if_false, if_true, Nat.div_div_eq_div_mul, Nat.div_one]
  split_ifs <;> rfl

theorem toDigits_eq_decimal {n : Nat} (hmax : n < 100000) : Nat.toDigits 10 n = decimal n := by
  induction n using Nat.strong_induction_on with
  | _ n ih =>
    rw [Nat.toDigits_eq_if (by decide)]
    split_ifs with h
    · rw [decimal_of_lt h, digitChar_eq h]
    · rw [ih (n / 10) (by omega) (by omega), decimal_of_ge (by omega) hmax, digitChar_eq (Nat.mod_lt n (by decide))]

theorem overlayText_eq (cnt : BitVec 16) (time : TimeOfDay) : overlayText cnt time =
    ['P', 'I', 'C', ':'] ++ decimal cnt.toNat ++ [' ', 'T', ':'] ++ twoPlaces time.hh ++ [':'] ++ twoPlaces time.mm ++
      [':'] ++ twoPlaces time.ss := by
  have hcnt := cnt.isLt
  rw [overlayText, toDigits_eq_decimal (by omega), twoDigits_eq_twoPlaces (by omega), twoDigits_eq_twoPlaces (by omega),
    twoDigits_eq_twoPlaces (by omega)]

/-! ## The points inked, and M -/

/-- A character inks the points of its glyph, moved to its cell. -/
theorem mem_glyphPoints {r : Renderer} {k : Nat} {c : Char} {u : Int × Int} :
    u ∈ glyphPoints r k c ↔ ∃ (glyph : List (Nat × Nat)) (px py : Nat), r.glyphs.lookup c = some glyph ∧
      (px, py) ∈ glyph ∧ u = (r.anchorX + k * r.cellW + px, r.anchorY + py) := by
  unfold glyphPoints
  cases r.glyphs.lookup c with
  | none => simp
  | some glyph => simp [eq_comm]

theorem mem_overlayPoints {r : Renderer} {cnt : BitVec 16} {time : TimeOfDay} {u : Int × Int} :
    u ∈ overlayPoints r cnt time ↔ ∃ (k : Nat) (c : Char) (glyph : List (Nat × Nat)) (px py : Nat),
      (overlayText cnt time)[k]? = some c ∧ r.glyphs.lookup c = some glyph ∧ (px, py) ∈ glyph ∧
      u = (r.anchorX + k * r.cellW + px, r.anchorY + py) := by
  simp only [overlayPoints, List.mem_flatMap, List.mem_zipIdx_iff_getElem?, mem_glyphPoints, Prod.exists]
  constructor
  · rintro ⟨c, k, htext, glyph, px, py, hpoint⟩
    exact ⟨k, c, glyph, px, py, htext, hpoint⟩
  · rintro ⟨k, c, glyph, px, py, htext, hpoint⟩
    exact ⟨c, k, htext, glyph, px, py, hpoint⟩

theorem visibleSlot_eq_some_iff {p : Int × Int} {j : Nat} : visibleSlot p = some j ↔
    0 ≤ p.1 ∧ p.1 < 320 ∧ 0 ≤ p.2 ∧ p.2 < 240 ∧ (j : Int) = p.2 * 512 + p.1 := by
  have hin : inBounds Config.geometry p.1 p.2 = true ↔ 0 ≤ p.1 ∧ p.1 < 320 ∧ 0 ≤ p.2 ∧ p.2 < 240 := decide_eq_true_iff
  have hslot : slotIndex Config.geometry p.1.toNat p.2.toNat = p.2.toNat * 512 + p.1.toNat := rfl
  unfold visibleSlot
  split_ifs with h <;> rw [hin] at h
  · rw [Option.some.injEq, hslot]
    omega
  · exact iff_of_false nofun fun ⟨hx, hx', hy, hy', _⟩ => h ⟨hx, hx', hy, hy'⟩

theorem mem_overlaySlots {r : Renderer} {cnt : BitVec 16} {time : TimeOfDay} {j : Nat} :
    j ∈ overlaySlots r cnt time ↔
      ∃ p ∈ overlayPoints r cnt time, 0 ≤ p.1 ∧ p.1 < 320 ∧ 0 ≤ p.2 ∧ p.2 < 240 ∧ (j : Int) = p.2 * 512 + p.1 := by
  simp only [overlaySlots, List.mem_filterMap, visibleSlot_eq_some_iff]

/-! ## One move of the renderer in its window -/

section Window

variable {s : State} {q : Request} {rest : List Move} (hm : s.moves = .renderer q :: rest) (ho : s.ovl = true)
  (hd : s.ovlDone = false)

include hm in
theorem step_renderer : step s = rendererRequest q (after s rest) := step_cons hm

include ho hd in
theorem window_open : ¬ inOverlayWindow (after s rest) = false := by
  simp [inOverlayWindow, after, ho, hd]

include hm ho hd

theorem step_renderer_of_writesNothing (hq : writesNothing q) : step s = serveRequest q (after s rest) := by
  rw [step_renderer hm, rendererRequest, if_neg (window_open ho hd)]
  split
  · next x y p hdec => exact absurd hdec (hq x y p).1
  · next x y p hdec => exact absurd hdec (hq x y p).2
  · rfl

theorem step_renderer_fset {x y : Operand} {p : Pixel} (hdec : decode q = .ok (.fset x y p)) :
    step s = .refused .rendererWriteNotClipped := by
  rw [step_renderer hm, rendererRequest, if_neg (window_open ho hd), hdec]

theorem step_renderer_fsetc {x y : Operand} {p : Pixel} (hdec : decode q = .ok (.fsetc x y p)) :
    step s = rendererDraw q x y p (after s rest) := by
  rw [step_renderer hm, rendererRequest, if_neg (window_open ho hd), hdec]

theorem step_renderer_fsetc_off_frame {x y : Operand} {p : Pixel} (hdec : decode q = .ok (.fsetc x y p))
    (hc : s.ctl ≠ .halted) (hframe : ¬ onFrame x y) : step s = .next (answered (after s rest) 0) := by
  simp only [step_renderer_fsetc hm ho hd hdec, rendererDraw, visibleSlot_of_not_onFrame hframe]
  rw [serveRequest_fsetc hdec (s := after s rest) hc, setClip_of_not_onFrame _ _ hframe]
  rfl

theorem step_renderer_fsetc_in_overlay {x y : Operand} (hdec : decode q = .ok (.fsetc x y s.renderer.ink))
    (hc : s.ctl ≠ .halted) (hframe : onFrame x y) (hM : y.toNat * 512 + x.toNat ∈ s.overlaySlots) :
    step s = .next { after s rest with
      fb := memWrite s.fb (y.toNat * 512 + x.toNat) s.renderer.ink
      inked := (s.markInked (y.toNat * 512 + x.toNat)).inked
      resp := some ⟨0, 0⟩ } := by
  have hadmitted : s.renderer.ink = (after s rest).renderer.ink ∧
      y.toNat * 512 + x.toNat ∈ (after s rest).overlaySlots := ⟨rfl, hM⟩
  simp only [step_renderer_fsetc hm ho hd hdec, rendererDraw, visibleSlot_of_onFrame hframe, if_pos hadmitted]
  rw [serveRequest_fsetc hdec (s := (after s rest).markInked _) hc, setClip_of_onFrame _ _ hframe]
  rfl

theorem step_renderer_fsetc_refused {x y : Operand} {p : Pixel} (hdec : decode q = .ok (.fsetc x y p))
    (hframe : onFrame x y) (hM : ¬ (p = s.renderer.ink ∧ y.toNat * 512 + x.toNat ∈ s.overlaySlots)) :
    step s = .refused .rendererOutsideOverlay := by
  simp only [step_renderer_fsetc hm ho hd hdec, rendererDraw, visibleSlot_of_onFrame hframe]
  exact if_neg hM

end Window

/-- Settles O60. -/
theorem rendererDrawsItsOverlay : Obligations.RendererDrawsItsOverlay := by
  unfold Obligations.RendererDrawsItsOverlay
  refine ⟨fun s q rest hm ho hd => ?_, fun s rest hw => ?_, fun s q x y p rest hm hdec hc ho hd => ?_⟩
  · exact ⟨step_renderer_of_writesNothing hm ho hd, fun x y p => step_renderer_fset hm ho hd⟩
  · exact ⟨fun q hm => step_outside_window hm (.inr ⟨q, rfl⟩) hw, fun hm => step_outside_window hm (.inl rfl) hw⟩
  · refine ⟨step_renderer_fsetc_off_frame hm ho hd hdec hc, fun hframe hp hM => ?_,
      step_renderer_fsetc_refused hm ho hd hdec⟩
    subst hp
    exact ⟨_, step_renderer_fsetc_in_overlay hm ho hd hdec hc hframe hM, rfl, fun j => State.mem_markInked_inked,
      fun j => memRead_memWrite ..⟩

/-! ## Drawing, as a relation between states -/

/-- From `s` to `t` the renderer has drawn the given slots in its ink, and nothing else of the state has changed but the
moves to come and the last response. -/
structure Drew (s : State) (slots : List Nat) (t : State) : Prop where
  same : t = { s with moves := t.moves, fb := t.fb, inked := t.inked, resp := t.resp }
  marks : ∀ j, j ∈ t.inked ↔ j ∈ slots ∨ j ∈ s.inked
  reads : ∀ j, memRead t.fb j = if j ∈ slots then s.renderer.ink else memRead s.fb j

theorem Drew.nothing (s : State) : Drew s [] s where
  same := rfl
  marks j := by simp
  reads j := rfl

section Frame

variable {s t : State} {l : List Nat} (h : Drew s l t)
include h

theorem Drew.ctl_eq : t.ctl = s.ctl := by rw [h.same]
theorem Drew.ovl_eq : t.ovl = s.ovl := by rw [h.same]
theorem Drew.ovlDone_eq : t.ovlDone = s.ovlDone := by rw [h.same]
theorem Drew.renderer_eq : t.renderer = s.renderer := by rw [h.same]
theorem Drew.overlaySlots_eq : t.overlaySlots = s.overlaySlots := by rw [h.same]; rfl

end Frame

theorem Drew.trans {s t u : State} {l l' : List Nat} (h : Drew s l t) (h' : Drew t l' u) : Drew s (l ++ l') u where
  same := h'.same.trans (by rw [h.same])
  marks j := by rw [h'.marks, h.marks, List.mem_append]; tauto
  reads j := by
    rw [h'.reads, h.reads, h.renderer_eq]
    by_cases hj : j ∈ l' <;> simp [hj]

/-- One FSETC of the renderer in OVL_INK draws its point, if that is a visible pixel of the overlay, and nothing if it
lies outside the frame. -/
theorem step_draws {s : State} {q : Request} {x y : Operand} {rest : List Move} (hm : s.moves = .renderer q :: rest)
    (hdec : decode q = .ok (.fsetc x y s.renderer.ink)) (hc : s.ctl ≠ .halted) (ho : s.ovl = true)
    (hd : s.ovlDone = false) (hM : ∀ j, visibleSlot (sint16 x, sint16 y) = some j → j ∈ s.overlaySlots) :
    ∃ t, step s = .next t ∧ t.moves = rest ∧ Drew s (visibleSlot (sint16 x, sint16 y)).toList t := by
  by_cases hframe : onFrame x y
  · have hslot := visibleSlot_of_onFrame hframe
    refine ⟨_, step_renderer_fsetc_in_overlay hm ho hd hdec hc hframe (hM _ hslot), rfl, ?_⟩
    rw [hslot, Option.toList_some]
    exact ⟨rfl, fun j => by simp, fun j => by simp [memRead_memWrite]⟩
  · refine ⟨_, step_renderer_fsetc_off_frame hm ho hd hdec hc hframe, rfl, ?_⟩
    rw [visibleSlot_of_not_onFrame hframe]
    exact ⟨rfl, fun j => by simp [answered, after], fun j => rfl⟩

/-! ## The moves for one overlay (log entry 17) -/

/-- A request's fields can carry the point (spec/30_encoding.md R82). -/
def carried (p : Int × Int) : Bool := -32768 ≤ p.1 ∧ p.1 < 32768 ∧ -32768 ≤ p.2 ∧ p.2 < 32768

/-- The renderer's move for a point. -/
def drawMove (r : Renderer) (p : Int × Int) : Move :=
  .renderer (encode (.fsetc (BitVec.ofInt 16 p.1) (BitVec.ofInt 16 p.2) r.ink))

/-- The points drawn by `overlayMoves`. -/
def drawnPoints (r : Renderer) (cnt : BitVec 16) (time : TimeOfDay) : List (Int × Int) :=
  (overlayPoints r cnt time).filter carried

theorem overlayMoves_eq (r : Renderer) (cnt : BitVec 16) (time : TimeOfDay) :
    overlayMoves r cnt time = (drawnPoints r cnt time).map (drawMove r) ++ [.rendererDone] := rfl

theorem sint16_ofInt {a : Int} (h : -32768 ≤ a) (h' : a < 32768) : sint16 (BitVec.ofInt 16 a) = a :=
  BitVec.toInt_ofInt_eq_self (by decide) h h'

/-- Every visible pixel can be carried, so the points drawn ink all of M and nothing else. -/
theorem mem_drawnSlots {r : Renderer} {cnt : BitVec 16} {time : TimeOfDay} {j : Nat} :
    j ∈ (drawnPoints r cnt time).filterMap visibleSlot ↔ j ∈ overlaySlots r cnt time := by
  simp only [drawnPoints, overlaySlots, List.mem_filterMap, List.mem_filter]
  constructor
  · rintro ⟨p, ⟨hp, -⟩, hslot⟩
    exact ⟨p, hp, hslot⟩
  · rintro ⟨p, hp, hslot⟩
    obtain ⟨hx, hx', hy, hy', -⟩ := visibleSlot_eq_some_iff.mp hslot
    exact ⟨p, ⟨hp, decide_eq_true (by omega)⟩, hslot⟩

/-- The draw moves of a list of points, run through from a state in the renderer's window. -/
theorem run_drawMoves {l : List (Int × Int)} {s : State} {rest : List Move}
    (hm : s.moves = l.map (drawMove s.renderer) ++ rest) (hc : s.ctl ≠ .halted) (ho : s.ovl = true)
    (hd : s.ovlDone = false) (hl : ∀ p ∈ l, carried p = true)
    (hM : ∀ j ∈ l.filterMap visibleSlot, j ∈ s.overlaySlots) :
    ∃ t, (∀ k, core.run (l.length + k) s = core.run k t) ∧ t.moves = rest ∧ Drew s (l.filterMap visibleSlot) t := by
  induction l generalizing s with
  | nil => exact ⟨s, fun k => by rw [List.length_nil, Nat.zero_add], hm, .nothing s⟩
  | cons p ps ih =>
    obtain ⟨hx, hx', hy, hy'⟩ := of_decide_eq_true (hl p List.mem_cons_self)
    have hslots : (p :: ps).filterMap visibleSlot = (visibleSlot p).toList ++ ps.filterMap visibleSlot := by
      cases h : visibleSlot p <;> simp [h]
    rw [hslots] at hM ⊢
    have hpoint : (sint16 (BitVec.ofInt 16 p.1), sint16 (BitVec.ofInt 16 p.2)) = p :=
      Prod.ext (sint16_ofInt hx hx') (sint16_ofInt hy hy')
    obtain ⟨t, hstep, hmoves, hdrew⟩ := step_draws hm (Laws.RoundTrip.fsetc _ _ _ rfl) hc ho hd fun j hj =>
      hM j (List.mem_append_left _ (by rw [← hpoint, hj]; simp))
    rw [hpoint] at hdrew
    obtain ⟨u, hrun, hrest, hdrews⟩ := ih (s := t) (by rw [hmoves, hdrew.renderer_eq]; rfl) (by rwa [hdrew.ctl_eq])
      (by rwa [hdrew.ovl_eq]) (by rwa [hdrew.ovlDone_eq]) (fun p' hp' => hl p' (List.mem_cons_of_mem p hp'))
      (fun j hj => by rw [hdrew.overlaySlots_eq]; exact hM j (List.mem_append_right _ hj))
    refine ⟨u, fun k => ?_, hrest, hdrew.trans hdrews⟩
    rw [List.length_cons, Nat.add_right_comm, run_succ hstep, hrun]

/-- The renderer's moves for the pending overlay, run through: all of M is drawn and the overlay is done. -/
theorem run_overlayMoves {s : State} {rest : List Move}
    (hm : s.moves = overlayMoves s.renderer s.cnt s.ovlTime ++ rest) (hc : s.ctl = .capturing) (ho : s.ovl = true)
    (hd : s.ovlDone = false) :
    ∃ t, core.run (overlayMoves s.renderer s.cnt s.ovlTime).length s = .next t ∧
      t = { after s rest with fb := t.fb, ovlDone := true, inked := t.inked } ∧
      ∀ j, memRead t.fb j = if j ∈ s.overlaySlots then s.renderer.ink else memRead s.fb j := by
  have hdrawn : ∀ j, j ∈ (drawnPoints s.renderer s.cnt s.ovlTime).filterMap visibleSlot ↔ j ∈ s.overlaySlots :=
    fun _ => mem_drawnSlots
  rw [overlayMoves_eq, List.append_assoc, List.singleton_append] at hm
  obtain ⟨t, hrun, hmoves, hdrew⟩ := run_drawMoves hm (by simp [hc]) ho hd (fun p hp => (List.mem_filter.mp hp).2)
    (fun j => (hdrawn j).mp)
  have hall : ∀ j ∈ t.overlaySlots, j ∈ t.inked := fun j hj =>
    (hdrew.marks j).mpr (.inl ((hdrawn j).mpr (hdrew.overlaySlots_eq ▸ hj)))
  have hdone := step_rendererDone hmoves (hdrew.ovl_eq.trans ho) (hdrew.ovlDone_eq.trans hd)
  rw [if_pos hall] at hdone
  refine ⟨{ after t rest with ovlDone := true }, ?_, by rw [hdrew.same]; rfl, fun j => ?_⟩
  · rw [overlayMoves_eq, List.length_append, List.length_map, hrun]
    exact (run_succ hdone).trans (run_zero _)
  · exact (hdrew.reads j).trans (if_congr (hdrawn j) rfl rfl)

/-- Settles O50: by induction on the points drawn, whose visible slots are M. -/
theorem overlayInksItsPointsOnly : Obligations.OverlayInksItsPointsOnly := by
  unfold Obligations.OverlayInksItsPointsOnly
  refine ⟨overlayText_eq, fun r cnt time u => mem_overlayPoints, fun r cnt time j => mem_overlaySlots, fun _ => rfl,
    fun s rest hm hc ho hd => ?_⟩
  obtain ⟨t, hrun, hsame, hread⟩ := run_overlayMoves hm hc ho hd
  refine ⟨t, hrun, hsame, fun j => ?_⟩
  rw [← mem_overlaySlots, hread j]
  exact ⟨fun hj => if_pos hj, fun hj => if_neg hj⟩

end Sys2Proof.Proofs.Overlay

/-! SUPPORT. How stable grayscale is (spec/42_transform_engine.md R168), and the transforms outside EDIT_SELECT (R161).

A gray pixel is the shade of one of 64 levels, and the levels `2r` and `2r + 1` share red and blue. XGRY takes a shade
to a shade of the same pair, and the even level to none above that of the odd one; so on shades it is idempotent, and
its fixed points are found among the 64 shades. -/

namespace Sys2Proof.Proofs.GrayStability

open Sys2Proof Sys2Proof.Machine Sys2Proof.Statements
open Sys2Proof.Proofs.StateRecord Sys2Proof.Proofs.Encoding Sys2Proof.Proofs.Codec Sys2Proof.Proofs.FrameTransforms

/-! ## Shades and levels -/

/-- The gray pixel of level `m`: its green is `m`, and red and blue are the half of it. -/
def shade (m : Nat) : Pixel := encodePixel (m / 2) m (m / 2)

/-- The level to which XGRY takes a pixel: the upper six bits of its gray8. -/
def grayLevel (p : Pixel) : Nat := gray8 p / 4

theorem grayPixel_eq_shade (p : Pixel) : grayPixel p = shade (grayLevel p) := by
  rw [grayPixel, grayPixelOf, shade, grayLevel, Nat.div_div_eq_div_mul, Nat.shiftRight_eq_div_pow,
    Nat.shiftRight_eq_div_pow]

theorem grayLevel_lt (p : Pixel) : grayLevel p < 64 := Nat.div_lt_of_lt_mul (gray8_lt p)

section Shade

variable {m : Nat} (hm : m < 64)
include hm

theorem decodePixel_shade : decodePixel (shade m) = ⟨m / 2, m, m / 2⟩ := by
  have hhalf : m / 2 &&& 31 = m / 2 := Nat.and_two_pow_sub_one_of_lt_two_pow (n := 5) (by omega)
  have hgreen : m &&& 63 = m := Nat.and_two_pow_sub_one_of_lt_two_pow (n := 6) hm
  rw [shade, decodePixel_encodePixel, hhalf, hgreen]

/-- The level of a shade, as one quotient. -/
theorem grayLevel_shade : grayLevel (shade m) = (16 * (m / 2) + 2 * (m / 2 / 4) + 4 * m + m / 2 / 8) / 12 := by
  have hhalf : m / 2 < 32 := by omega
  simp only [grayLevel, gray8, decodePixel_shade hm, to8_five hhalf, to8_six hm]
  omega

/-- The levels `2r` and `2r + 1` of one red and blue stay a pair. -/
theorem grayLevel_shade_half : grayLevel (shade m) / 2 = m / 2 := by
  rw [grayLevel_shade hm]
  omega

/-- The level of a shade does not change again. -/
theorem grayLevel_shade_twice : grayLevel (shade (grayLevel (shade m))) = grayLevel (shade m) := by
  have hhalf := grayLevel_shade_half hm
  have honce := grayLevel_shade hm
  have htwice := grayLevel_shade (grayLevel_lt (shade m))
  rw [hhalf] at htwice
  have hpair : grayLevel (shade m) = 2 * (m / 2) ∨ grayLevel (shade m) = 2 * (m / 2) + 1 := by omega
  rcases hpair with heven | hodd <;> omega

end Shade

/-! ## Passes over one pixel (R168) -/

theorem grayPixel_thrice (p : Pixel) : grayPixel (grayPixel (grayPixel p)) = grayPixel (grayPixel p) := by
  simp only [grayPixel_eq_shade, grayLevel_shade_twice (grayLevel_lt p)]

theorem grayPixel_twice_of_lt_two {p : Pixel} (hp : p.toNat < 2) : grayPixel (grayPixel p) = grayPixel p := by
  have hblack : grayLevel p = 0 := by
    rw [grayLevel, gray8_eq]
    omega
  have hzero : grayLevel (shade 0) = 0 := grayLevel_shade (by decide)
  simp only [grayPixel_eq_shade, hblack, hzero]

/-- The levels whose shade XGRY leaves alone, in rising order. -/
def fixedLevels : List Nat := (List.range 64).filter fun m => grayLevel (shade m) = m

theorem mem_fixedLevels {m : Nat} : m ∈ fixedLevels ↔ m < 64 ∧ grayLevel (shade m) = m := by
  simp [fixedLevels]

/-- XGRY leaves alone exactly the shades of the fixed levels. -/
theorem grayPixel_eq_self_iff (p : Pixel) : grayPixel p = p ↔ p ∈ fixedLevels.map shade := by
  simp only [List.mem_map, mem_fixedLevels]
  constructor
  · intro h
    have hp : shade (grayLevel p) = p := (grayPixel_eq_shade p).symm.trans h
    exact ⟨grayLevel p, ⟨grayLevel_lt p, by rw [hp]⟩, hp⟩
  · rintro ⟨m, ⟨-, hfixed⟩, rfl⟩
    rw [grayPixel_eq_shade, hfixed]

theorem grayPixel_red_eq_blue (p : Pixel) : (decodePixel (grayPixel p)).r = (decodePixel (grayPixel p)).b := by
  rw [grayPixel_eq_shade, decodePixel_shade (grayLevel_lt p)]

/-- Settles O22: the fixed pixels are enumerated over the 64 levels, not over the pixels. -/
theorem grayscaleStability : Obligations.GrayscaleStability := by
  unfold Obligations.GrayscaleStability
  refine ⟨⟨by decide, by decide, fun p => grayPixel_twice_of_lt_two⟩, grayPixel_thrice, fun p => ?_,
    grayPixel_red_eq_blue⟩
  rw [grayPixel_eq_self_iff]
  exact iff_of_eq (congrArg (p ∈ ·) (by decide))

/-! ## Passes over the frame -/

theorem memRead_grayFrame_thrice (m : Memory) (j : Nat) :
    memRead (grayFrame Config.geometry (grayFrame Config.geometry (grayFrame Config.geometry m))) j
      = memRead (grayFrame Config.geometry (grayFrame Config.geometry m)) j := by
  unfold grayFrame
  by_cases hj : visible j
  · simp only [memRead_mapFrame_of_visible _ _ hj, grayPixel_thrice]
  · simp only [memRead_mapFrame_of_not_visible _ _ hj]

theorem exec_xgry_editSelect {s : State} (hc : s.ctl = .editSelect) :
    ∃ t, exec .xgry s = .next t ∧ t.ctl = .editSelect ∧ t.fb = grayFrame Config.geometry s.fb := by
  refine ⟨_, (exec_xgry s).trans (congrArg _ (transform_editSelect hc _ _)), ?_, ?_⟩
  · rwa [State.respond_ctl, State.withFrame_ctl]
  · rw [State.respond_fb, State.withFrame_fb]

/-- Settles O23. -/
theorem xgryStableAfterTwoPasses : Obligations.XgryStableAfterTwoPasses := by
  unfold Obligations.XgryStableAfterTwoPasses
  intro s hs
  obtain ⟨t, hst, ht, htfb⟩ := exec_xgry_editSelect hs
  obtain ⟨u, htu, hu, hufb⟩ := exec_xgry_editSelect ht
  obtain ⟨v, huv, -, hvfb⟩ := exec_xgry_editSelect hu
  refine ⟨t, u, v, hst, htu, huv, fun j => ?_⟩
  rw [hvfb, hufb, htfb, memRead_grayFrame_thrice]

/-! ## Outside EDIT_SELECT (R161) -/

theorem transform_of_ne_editSelect {s : State} (hc : s.ctl ≠ .editSelect) (op : Code) (run : Memory → Memory) :
    transform op run s = faulted s 3 op 0 0 :=
  (if_neg hc).trans (raiseFault_eq_faulted s .stateViolation op 0 0)

/-- Settles O25. -/
theorem transformsNeedEditSelect : Obligations.TransformsNeedEditSelect := by
  unfold Obligations.TransformsNeedEditSelect
  intro s hc
  rw [exec_xmir, exec_xgry, exec_xinv]
  simp only [transform_of_ne_editSelect hc, and_self]

end Sys2Proof.Proofs.GrayStability

/-! SUPPORT. The frame capture controller (spec/43_capture_controller.md): its invariant along every step, what a poll
does in each of its states, what it reads and where it writes the port, and HALTED. -/

namespace Sys2Proof.Proofs.CaptureController

open Sys2Proof Sys2Proof.Machine Sys2Proof.Safety Sys2Proof.Statements
open Sys2Proof.Proofs.StateRecord Sys2Proof.Proofs.Encoding Sys2Proof.Proofs.FrameTransforms
open Sys2Proof.Proofs.GrayStability

/-- Settles O35: of the moves only a poll, the renderer's done step and reset reach what the invariant reads. -/
theorem stepKeepsControllerInvariant : Obligations.StepKeepsControllerInvariant := by
  unfold Obligations.StepKeepsControllerInvariant
  exact fun _ _ => step_keeps_controllerInv

/-! ## A poll in each state (R192) -/

section Polls

variable {s : State} (btn : BitVec 32) (time : TimeOfDay)

theorem step_poll {btn : BitVec 32} {time : TimeOfDay} {rest : List Move} (hm : s.moves = .poll btn time :: rest) :
    step s = pollStep btn time (after s rest) := step_cons hm

theorem pollStep_halted (hc : s.ctl = .halted) : pollStep btn time s = .next s := if_pos hc

theorem pollStep_waiting (hc : s.ctl ≠ .halted) (hd : s.dbw ≠ 0) :
    pollStep btn time s = .next (stepDebounce btn s) := by
  rw [pollStep, if_neg hc, if_pos hd]

theorem pollStep_streaming (hc : s.ctl = .streaming) (hd : s.dbw = 0) :
    pollStep btn time s = .next (stepStreaming btn s) := by
  simp [pollStep, hc, hd]

theorem pollStep_capturing (hc : s.ctl = .capturing) (hd : s.dbw = 0) :
    pollStep btn time s = .next (stepCapturing time s) := by
  simp [pollStep, hc, hd]

theorem pollStep_frozenOverlaid (hc : s.ctl = .frozenOverlaid) (hd : s.dbw = 0) :
    pollStep btn time s = .next { s with ctl := .editSelect } := by
  simp [pollStep, hc, hd]

theorem pollStep_editSelect (hc : s.ctl = .editSelect) (hd : s.dbw = 0) :
    pollStep btn time s = stepEditSelect btn s := by
  simp [pollStep, hc, hd]

end Polls

theorem twoPow_ne_zero {i : Nat} (hi : i < 4) : BitVec.twoPow 4 i ≠ 0 :=
  (show ∀ i < 4, BitVec.twoPow 4 i ≠ 0 by decide) i hi

/-- While one bit is waited for, the debounce test reads that bit (R194). -/
theorem stepDebounce_twoPow {s : State} {i : Nat} (hi : i < 4) (hd : s.dbw = BitVec.twoPow 4 i) (btn : BitVec 32) :
    stepDebounce btn s = if btn.getLsbD i then s else { s with dbw := 0 } := by
  have hbit : (btn.extractLsb' 0 4).getLsbD i = btn.getLsbD i := by simp [hi]
  rw [stepDebounce, hd, BitVec.and_twoPow, hbit]
  cases btn.getLsbD i
  · rfl
  · exact if_neg (twoPow_ne_zero hi)

/-- Settles O27. -/
theorem debounceWaitsForTheBit : Obligations.DebounceWaitsForTheBit := by
  unfold Obligations.DebounceWaitsForTheBit
  intro s btn time rest i hm hc hi hd
  have hne : s.dbw ≠ 0 := hd ▸ twoPow_ne_zero hi
  rw [step_poll hm, pollStep_waiting (s := after s rest) btn time hc hne,
    stepDebounce_twoPow (s := after s rest) hi hd]

/-- Settles O28. -/
theorem streamingWaitsForCapture : Obligations.StreamingWaitsForCapture := by
  unfold Obligations.StreamingWaitsForCapture
  intro s btn time rest hm hc hd
  rw [step_poll hm, pollStep_streaming (s := after s rest) btn time hc hd]
  rfl

/-! ### CAPTURING (R196) -/

section Capturing

variable {s : State} (time : TimeOfDay)

theorem stepCapturing_requests (ho : s.ovl = false) : stepCapturing time s =
    { s.record (.ovlReq (wrapInc s.cnt) time) with
      cnt := wrapInc s.cnt, ovl := true, ovlDone := false, ovlTime := time, inked := [] } := if_pos ho

theorem stepCapturing_consumes (ho : s.ovl = true) (hdone : s.ovlDone = true) :
    stepCapturing time s = { s with ovl := false, ovlDone := false, ctl := .frozenOverlaid } := by
  rw [stepCapturing, if_neg (by simp [ho]), if_pos hdone]

theorem stepCapturing_waits (ho : s.ovl = true) (hdone : s.ovlDone = false) : stepCapturing time s = s := by
  rw [stepCapturing, if_neg (by simp [ho]), if_neg (by simp [hdone])]

end Capturing

/-- Settles O29. -/
theorem capturingCountsAndOverlays : Obligations.CapturingCountsAndOverlays := by
  unfold Obligations.CapturingCountsAndOverlays
  intro s btn time rest hm hc hd
  have hstep : step s = .next (stepCapturing time (after s rest)) :=
    (step_poll hm).trans (pollStep_capturing btn time hc hd)
  refine ⟨fun ho => ⟨wrapInc s.cnt, rfl, _, hstep, ?_⟩, fun ho hdone => ?_, fun ho hdone => ?_⟩
  · rw [stepCapturing_requests (s := after s rest) time ho]
    rfl
  · rw [hstep, stepCapturing_consumes (s := after s rest) time ho hdone]
  · rw [hstep, stepCapturing_waits (s := after s rest) time ho hdone]

/-- Settles O30. -/
theorem overlaidOpensAndHaltedStays : Obligations.OverlaidOpensAndHaltedStays := by
  unfold Obligations.OverlaidOpensAndHaltedStays
  intro s btn time rest hm
  exact ⟨fun hc hd => (step_poll hm).trans (pollStep_frozenOverlaid btn time hc hd),
    fun hc => ⟨(step_poll hm).trans (pollStep_halted btn time hc), if_pos hc⟩⟩

/-- Settles O31. -/
theorem editSelectActsOnTheLowestBit : Obligations.EditSelectActsOnTheLowestBit := by
  unfold Obligations.EditSelectActsOnTheLowestBit
  intro s btn time rest hm hc hd
  have hc' : (after s rest).ctl = .editSelect := hc
  rw [step_poll hm, pollStep_editSelect btn time hc' hd, stepEditSelect, buttonEvent]
  split_ifs
  · rfl
  · exact runTransform_editSelect hc' 0xB (mirrorFrame Config.geometry) (decode_encode rfl) (exec_xmir _) 0x2
  · exact runTransform_editSelect hc' 0xC (grayFrame Config.geometry) (decode_encode rfl) (exec_xgry _) 0x4
  · exact runTransform_editSelect hc' 0xD (invertFrame Config.geometry) (decode_encode rfl) (exec_xinv _) 0x8
  · rfl

/-! ## What a poll reads (R191) and where it writes the port (R204) -/

theorem stepCapturing_ignores_time (t u : TimeOfDay) {s : State} (ho : s.ovl ≠ false) :
    stepCapturing t s = stepCapturing u s := by
  rw [stepCapturing, stepCapturing, if_neg ho, if_neg ho]

/-- Settles O33: the time is an argument of the poll in CAPTURING alone, which reads it only at the request. -/
theorem timeReadOnlyAtTheRequest : Obligations.TimeReadOnlyAtTheRequest := by
  unfold Obligations.TimeReadOnlyAtTheRequest
  intro s btn t u hno
  by_cases hcap : s.ctl = .capturing ∧ s.dbw = 0
  · obtain ⟨hc, hd⟩ := hcap
    rw [pollStep_capturing btn t hc hd, pollStep_capturing btn u hc hd,
      stepCapturing_ignores_time t u fun ho => hno ⟨hc, hd, ho⟩]
  · unfold pollStep
    split_ifs with hh hd
    · rfl
    · rfl
    · cases hc : s.ctl with
      | capturing => exact absurd ⟨hc, not_not.mp hd⟩ hcap
      | _ => rfl

/-- The step from `s` to `t` leaves the port and its writes as they were. -/
def KeepsPort (s t : State) : Prop := vctlWrites t.hist = vctlWrites s.hist ∧ t.vctl = s.vctl

theorem served_keepsPort {s t : State} (h : Served s t) : KeepsPort s t := by
  obtain ⟨-, -, -, -, -, hvctl, -, -, -, -, -, hwrites, -⟩ := served_controller h
  exact ⟨hwrites, hvctl⟩

/-- Of the transitions of a poll two write the port (R195, R198). -/
theorem polled_port {s t : State} (h : Polled s t) : KeepsPort s t ∨
    (s.ctl = .streaming ∧ t.ctl = .capturing ∧ vctlWrites t.hist = vctlWrites s.hist ++ [0x0] ∧ t.vctl = 0x0) ∨
    (s.ctl = .editSelect ∧ t.ctl = .streaming ∧ vctlWrites t.hist = vctlWrites s.hist ++ [0x4] ∧ t.vctl = 0x4 ∧
      t.fb = s.fb) := by
  cases h with
  | captures hc => exact .inr (.inl ⟨hc, rfl, vctlWrites_append_vctl _ _, rfl⟩)
  | rearms hc => exact .inr (.inr ⟨hc, rfl, vctlWrites_append_vctl _ _, rfl, rfl⟩)
  | requests => exact .inl ⟨vctlWrites_append_ovlReq _ _ _, rfl⟩
  | _ => exact .inl ⟨rfl, rfl⟩

/-- Settles O34. -/
theorem streamWritesOnlyAtTheBoundaries : Obligations.StreamWritesOnlyAtTheBoundaries := by
  unfold Obligations.StreamWritesOnlyAtTheBoundaries
  intro s t h
  cases step_stepped h with
  | served _ rest _ _ _ hv => exact .inl (served_keepsPort (s := s.took rest) hv)
  | drew _ _ _ slot rest _ _ _ _ _ _ _ _ hv =>
    rcases hv with ⟨-, rfl⟩ | hv
    · exact .inl ⟨rfl, rfl⟩
    · exact .inl (served_keepsPort (s := (s.took rest).markInked slot) hv)
  | polled _ _ _ _ _ hp => exact (polled_port hp).imp_right (Or.imp_right .inl)
  | polledFree _ _ hp => exact (polled_port hp).imp_right (Or.imp_right .inl)
  | reset rest hm => exact .inr (.inr (.inr ⟨rest, hm, rfl, rfl⟩))
  | ignored => exact .inl ⟨rfl, rfl⟩
  | done => exact .inl ⟨rfl, rfl⟩
  | dma => exact .inl ⟨rfl, rfl⟩
  | scanned => exact .inl ⟨rfl, rfl⟩

/-! ## A stuck button (R203) -/

/-- Settles O39, by induction on the samples: each of the polls leaves the wait standing. -/
theorem stuckButtonHangs : Obligations.StuckButtonHangs := by
  unfold Obligations.StuckButtonHangs
  intro samples
  induction samples with
  | nil =>
    intro s _ _ _ _ hm
    have hs : s = { s with moves := [] } := by rw [← show s.moves = [] from hm]
    exact (run_zero s).trans (congrArg _ hs)
  | cons b bs ih =>
    intro s hc hd hr hb hm
    have hstep := debounceWaitsForTheBit s b.1 b.2 _ 0 hm (by simp [hc]) (by decide) hd
    rw [if_pos (hb b List.mem_cons_self)] at hstep
    rw [List.length_cons, run_succ hstep,
      ih (after s _) hc hd rfl (fun d hd => hb d (List.mem_cons_of_mem b hd)) rfl, after, ← hr]

/-! ## HALTED (R202, R236, R237) -/

theorem isStat_eq_false {q : Request} (h : ∀ sel, decode q ≠ .ok (.stat sel)) : isStat q = false := by
  unfold isStat
  split
  · next sel hd => exact absurd hd (h sel)
  · rfl

theorem served_responds {s t : State} (h : Served s t) : ∃ r, t.resp = some r := by
  cases h with
  | responds => exact ⟨_, rfl⟩
  | writes => exact ⟨_, rfl⟩
  | faults => exact ⟨_, State.raiseFault_resp ..⟩

/-- A transform of the controller's path that answers STATE_VIOLATION halts the block. -/
theorem runTransform_of_ne_editSelect {i : Instr} {op : Code} {run : Memory → Memory} {s : State}
    (hi : i.wellFormed = true) (hx : exec i s = .next (transform op run s)) (hc : s.ctl ≠ .editSelect)
    (wait : BitVec 4) :
    runTransform i wait s = .next { faulted s 3 op 0 0 with ctl := .halted, dbw := 0, resp := none } := by
  rw [runTransform, issue_controller_encode hi, hx, transform_of_ne_editSelect hc]
  rfl

/-- Settles O44. -/
theorem haltedAcceptsStatusOnly : Obligations.HaltedAcceptsStatusOnly := by
  unfold Obligations.HaltedAcceptsStatusOnly
  refine ⟨fun q s hc => ⟨fun sel hd => ?_, fun hno => ?_⟩, fun btn time s hc => ?_, fun q s hc => ?_,
    fun s wait hc => ?_⟩
  · exact serveRequest_of_decode_ok hd rfl (.inr ⟨sel, rfl⟩)
  · exact if_pos ⟨hc, isStat_eq_false hno⟩
  · exact ⟨pollStep_halted btn time hc, if_pos hc⟩
  · obtain ⟨hh, -⟩ | ⟨t, ht, hserved⟩ := serveRequest_cases q s
    · exact absurd hh hc
    · obtain ⟨r, hr⟩ := served_responds hserved
      exact ⟨t, r, ht, hr⟩
  · exact ⟨runTransform_of_ne_editSelect rfl (exec_xmir s) hc wait,
      runTransform_of_ne_editSelect rfl (exec_xgry s) hc wait,
      runTransform_of_ne_editSelect rfl (exec_xinv s) hc wait⟩

theorem served_ctl {s t : State} (h : Served s t) : t.ctl = s.ctl := (served_controller h).1

theorem polled_ne_halted {s t : State} (h : Polled s t) (hs : s.ctl ≠ .halted) : t.ctl ≠ .halted := by
  cases h with
  | captures => exact nofun
  | overlaid => exact nofun
  | opens => exact nofun
  | rearms => exact nofun
  | _ => exact hs

theorem step_ne_halted {s t : State} (hs : s.ctl ≠ .halted) (h : step s = .next t) : t.ctl ≠ .halted := by
  cases step_stepped h with
  | served _ _ _ _ _ hv => rwa [served_ctl hv]
  | drew _ _ _ _ _ _ _ _ _ _ _ _ _ hv =>
    rcases hv with ⟨-, rfl⟩ | hv
    · exact hs
    · rwa [served_ctl hv]
  | polled _ _ rest _ _ hp => exact polled_ne_halted (s := s.took rest) hp hs
  | polledFree _ _ hp => exact polled_ne_halted hp hs
  | reset => exact nofun
  | ignored => exact hs
  | done => exact hs
  | dma => exact hs
  | scanned => exact hs

/-- Settles O45. -/
theorem controllerNeverHalts : Obligations.ControllerNeverHalts := by
  unfold Obligations.ControllerNeverHalts
  refine ⟨fun s t => step_ne_halted, fun s btn time => ?_⟩
  obtain ⟨t, ht, hp⟩ := pollStep_polled btn time s
  exact ⟨t, ht, congrArg Prod.fst (polled_faultView hp)⟩

end Sys2Proof.Proofs.CaptureController

/-! SUPPORT. A pending overlay (spec/43_capture_controller.md R199, R200), however it is drawn: what each step keeps of
it, and what a run up to the done step leaves of the frame. -/

namespace Sys2Proof.Proofs.PendingOverlay

open Sys2Proof Sys2Proof.Machine Sys2Proof.Safety Sys2Proof.Statements
open Sys2Proof.Proofs.StateRecord Sys2Proof.Proofs.MemoryRegion Sys2Proof.Proofs.Overlay

/-! ## The renderer's parameters (log entry 17) -/

theorem served_renderer {s t : State} (h : Served s t) : t.renderer = s.renderer := by
  obtain ⟨-, -, -, -, -, -, -, -, hrenderer, -⟩ := served_controller h
  exact hrenderer

theorem polled_renderer {s t : State} (h : Polled s t) : t.renderer = s.renderer := by
  cases h <;> rfl

theorem step_keeps_renderer {s t : State} (h : step s = .next t) : t.renderer = s.renderer := by
  cases step_stepped h with
  | served _ rest _ _ _ hv => exact served_renderer (s := s.took rest) hv
  | drew _ _ _ slot rest _ _ _ _ _ _ _ _ hv =>
    rcases hv with ⟨-, rfl⟩ | hv
    · rfl
    · exact served_renderer (s := (s.took rest).markInked slot) hv
  | polled _ _ rest _ _ hp => exact polled_renderer (s := s.took rest) hp
  | polledFree _ _ hp => exact polled_renderer (s := { s with draws := s.draws + 1, resp := none }) hp
  | _ => rfl

/-! ## The step that requests an overlay (R196) -/

theorem served_ovl {s t : State} (h : Served s t) : t.ovl = s.ovl := by
  obtain ⟨-, -, hovl, -⟩ := served_controller h
  exact hovl

/-- The request's event is appended, nothing is drawn, and the frame is the one before. -/
def StartsOverlay (s t : State) : Prop :=
  t.fb = s.fb ∧ t.inked = [] ∧ t.ovlDone = false ∧ t.hist = s.hist ++ [.ovlReq t.cnt t.ovlTime]

theorem polled_sets_ovl {s t : State} (h : Polled s t) (hs : s.ovl = false) (ht : t.ovl = true) :
    StartsOverlay s t := by
  have hclear : ∀ {p : Prop}, t.ovl = false → p := fun hf => absurd (ht.symm.trans hf) (by decide)
  cases h with
  | requests => exact ⟨rfl, rfl, rfl, rfl⟩
  | overlaid => exact hclear rfl
  | _ => exact hclear hs

theorem step_sets_ovl {s t : State} (h : step s = .next t) (hs : s.ovl = false) (ht : t.ovl = true) :
    StartsOverlay s t := by
  have hclear : ∀ {p : Prop}, t.ovl = false → p := fun hf => absurd (ht.symm.trans hf) (by decide)
  cases step_stepped h with
  | polled _ _ rest _ _ hp => exact polled_sets_ovl (s := s.took rest) hp hs ht
  | polledFree _ _ hp => exact polled_sets_ovl (s := { s with draws := s.draws + 1, resp := none }) hp hs ht
  | served _ _ _ _ _ hv => exact hclear ((served_ovl hv).trans hs)
  | drew _ _ _ _ _ _ _ ho => exact absurd (ho.symm.trans hs) (by decide)
  | done _ _ ho => exact absurd (ho.symm.trans hs) (by decide)
  | reset => exact hclear rfl
  | ignored => exact hclear hs
  | dma => exact hclear hs
  | scanned => exact hclear hs

/-- Nothing drawn, the frame is the one at the request. -/
theorem overlayInv_of_nothing_drawn {s : State} {frame : Memory} (hfb : s.fb = frame) (hinked : s.inked = [])
    (hdone : s.ovlDone = false) : OverlayInv frame s where
  drawn j := by simp [hinked, hfb]
  inside j hj := by simp [hinked] at hj
  whole h := by simp [hdone] at h

/-! ## The steps while it is pending -/

/-- What the overlay's invariant reads: the frame, what of M is drawn, and the request that M is of. -/
def overlayView (s : State) : Memory × List Nat × Renderer × BitVec 16 × TimeOfDay :=
  (s.fb, s.inked, s.renderer, s.cnt, s.ovlTime)

theorem overlaySlots_of_overlayView_eq {s t : State} (h : overlayView t = overlayView s) :
    t.overlaySlots = s.overlaySlots := by
  simp only [overlayView, Prod.mk.injEq] at h
  obtain ⟨-, -, hrenderer, hcnt, htime⟩ := h
  rw [State.overlaySlots, State.overlaySlots, hrenderer, hcnt, htime]

theorem overlayInv_of_overlayView_eq {frame : Memory} {s t : State} (hs : OverlayInv frame s)
    (h : overlayView t = overlayView s) (hwhole : t.ovlDone = true → ∀ j ∈ s.overlaySlots, j ∈ s.inked) :
    OverlayInv frame t := by
  have hslots := overlaySlots_of_overlayView_eq h
  simp only [overlayView, Prod.mk.injEq] at h
  obtain ⟨hfb, hinked, hrenderer, -⟩ := h
  constructor <;> simp only [hfb, hinked, hrenderer, hslots]
  exacts [hs.drawn, hs.inside, hwhole]

/-- The renderer has drawn slots of M. -/
theorem overlayInv_of_drew {frame : Memory} {s t : State} {l : List Nat} (hs : OverlayInv frame s) (h : Drew s l t)
    (hl : ∀ j ∈ l, j ∈ s.overlaySlots) (hdone : s.ovlDone = false) : OverlayInv frame t where
  drawn j := by
    rw [h.reads, hs.drawn, h.renderer_eq, if_congr (h.marks j) rfl rfl]
    split_ifs <;> tauto
  inside j hj := by
    rw [h.overlaySlots_eq]
    exact ((h.marks j).mp hj).elim (hl j) (hs.inside j)
  whole ht := by simp [h.ovlDone_eq, hdone] at ht

/-- The next move is neither a host's write (spec/70_reset_and_hazards.md R268) nor a reset. -/
def Undisturbed (s : State) : Prop :=
  (∀ q rest, s.moves = .request q :: rest → writesNothing q) ∧ ∀ rest, s.moves ≠ .reset :: rest

/-- What an undisturbed step can do while an overlay is pending. -/
inductive PendingStep (s t : State) : Prop
  /-- Nothing of the overlay is reached. -/
  | keeps : overlayView t = overlayView s → t.ovl = s.ovl → t.ovlDone = s.ovlDone → PendingStep s t
  /-- The renderer draws one slot of M. -/
  | draws (slot : Nat) : slot ∈ s.overlaySlots → s.ovlDone = false → Drew s [slot] t → PendingStep s t
  /-- The renderer is done. -/
  | done (rest : List Move) : s.moves = .rendererDone :: rest → (∀ j ∈ s.overlaySlots, j ∈ s.inked) →
      overlayView t = overlayView s → PendingStep s t
  /-- The controller consumes the done. -/
  | consumes : s.ovlDone = true → t.ovlDone = false → overlayView t = overlayView s → PendingStep s t

/-- A request that leaves the frame alone reaches nothing of the overlay. -/
theorem served_overlayView {s t : State} (h : Served s t) (hfb : t.fb = s.fb) : overlayView t = overlayView s := by
  obtain ⟨-, -, -, -, hcnt, -, -, -, hrenderer, htime, hinked, -⟩ := served_controller h
  simp only [overlayView, hfb, hinked, hrenderer, hcnt, htime]

/-- In CAPTURING with an overlay pending a poll ends the wait, consumes the done, or does nothing (R194, R196). -/
theorem polled_pending {s t : State} (h : Polled s t) (hc : s.ctl = .capturing) (ho : s.ovl = true) :
    overlayView t = overlayView s ∧
      ((t.ovl = s.ovl ∧ t.ovlDone = s.ovlDone) ∨ (s.ovlDone = true ∧ t.ovlDone = false)) := by
  cases h with
  | stays => exact ⟨rfl, .inl ⟨rfl, rfl⟩⟩
  | released => exact ⟨rfl, .inl ⟨rfl, rfl⟩⟩
  | overlaid _ _ _ hdone => exact ⟨rfl, .inr ⟨hdone, rfl⟩⟩
  | captures hc' => simp [hc] at hc'
  | requests _ _ _ ho' => simp [ho] at ho'
  | opens hc' => simp [hc] at hc'
  | rearms hc' => simp [hc] at hc'
  | transforms _ _ hc' => simp [hc] at hc'

theorem step_pending {s t : State} (hs : ControllerInv s) (ho : s.ovl = true) (hu : Undisturbed s)
    (h : step s = .next t) : PendingStep s t := by
  obtain ⟨hcapturing, -⟩ := hs.overlay ho
  obtain ⟨hhost, hreset⟩ := hu
  cases step_stepped h with
  | served q rest _ hm hserve hv =>
    have hfb : t.fb = s.fb := by
      rcases hm with hm | ⟨-, -, -, hfset, hoff⟩
      · have hq := hhost q rest hm
        exact serveRequest_frame (s := s.took rest) hserve (fun x y p => (hq x y p).1)
          fun x y p hd => absurd hd (hq x y p).2
      · exact serveRequest_frame (s := s.took rest) hserve hfset hoff
    exact .keeps (served_overlayView (s := s.took rest) hv hfb) (served_ovl (s := s.took rest) hv)
      (served_ovlDone (s := s.took rest) hv)
  | drew q x y slot rest _ hm _ hdone hdec hslot hM =>
    obtain ⟨u, hu, -, hdrew⟩ := step_draws hm hdec hs.notHalted ho hdone fun j hj => by
      cases hslot.symm.trans hj
      exact hM
    cases hu.symm.trans h
    rw [hslot] at hdrew
    exact .draws slot hM hdone hdrew
  | polled _ _ rest _ _ hp =>
    obtain ⟨hview, ⟨hovl, hdone⟩ | ⟨hdone, hclear⟩⟩ := polled_pending (s := s.took rest) hp hcapturing ho
    · exact .keeps hview hovl hdone
    · exact .consumes hdone hclear hview
  | polledFree _ _ hp =>
    obtain ⟨hview, ⟨hovl, hdone⟩ | ⟨hdone, hclear⟩⟩ := polled_pending hp hcapturing ho
    · exact .keeps hview hovl hdone
    · exact .consumes hdone hclear hview
  | done rest hm _ _ hall => exact .done rest hm hall rfl
  | dma _ _ _ _ hvctl =>
    have hfrozen : s.vctl = 0x0 := hs.frozen (by simp [hcapturing])
    exact absurd (hfrozen.symm.trans hvctl) (by decide)
  | ignored => exact .keeps rfl rfl rfl
  | scanned => exact .keeps rfl rfl rfl
  | reset rest hm => exact absurd hm (hreset rest)

theorem pendingStep_keeps {frame : Memory} {s t : State} (hs : OverlayInv frame s) (h : PendingStep s t) :
    OverlayInv frame t ∧ t.overlaySlots = s.overlaySlots := by
  cases h with
  | keeps hview _ hdone =>
    exact ⟨overlayInv_of_overlayView_eq hs hview fun ht => hs.whole (hdone ▸ ht), overlaySlots_of_overlayView_eq hview⟩
  | draws slot hM hdone hdrew =>
    exact ⟨overlayInv_of_drew hs hdrew (fun j hj => List.mem_singleton.mp hj ▸ hM) hdone, hdrew.overlaySlots_eq⟩
  | done rest hm hall hview =>
    exact ⟨overlayInv_of_overlayView_eq hs hview fun _ => hall, overlaySlots_of_overlayView_eq hview⟩
  | consumes _ hclear hview =>
    exact ⟨overlayInv_of_overlayView_eq hs hview fun ht => by simp [hclear] at ht, overlaySlots_of_overlayView_eq hview⟩

/-- Settles O59: an overlay starts with nothing drawn, and an undisturbed step while it is pending draws a slot of M,
marks it done once all of M is drawn, or does not reach it. -/
theorem stepKeepsOverlayInvariant : Obligations.StepKeepsOverlayInvariant := by
  unfold Obligations.StepKeepsOverlayInvariant
  refine ⟨fun s t => step_keeps_renderer, fun s t h hs ht => ?_, fun frame s t hs ho hinv hhost hreset h => ?_⟩
  · obtain ⟨hfb, hinked, hdone, hhist⟩ := step_sets_ovl h hs ht
    exact ⟨overlayInv_of_nothing_drawn hfb hinked hdone, hhist⟩
  · exact pendingStep_keeps hinv (step_pending hs ho ⟨hhost, hreset⟩ h)

/-! ## A run to the done step -/

theorem served_moves {s t : State} (h : Served s t) : t.moves = s.moves := by
  obtain ⟨-, -, -, -, -, -, hmoves, -⟩ := served_controller h
  exact hmoves

theorem polled_moves {s t : State} (h : Polled s t) : t.moves = s.moves := by
  cases h <;> rfl

/-- A step that answers next takes its move. -/
theorem step_moves {s t : State} {m : Move} {rest : List Move} (hm : s.moves = m :: rest) (h : step s = .next t) :
    t.moves = rest := by
  have hrest : ∀ {m' rest'}, s.moves = m' :: rest' → rest' = rest := fun hm' => (List.cons.inj (hm'.symm.trans hm)).2
  cases step_stepped h with
  | served _ _ _ hm' _ hv => exact (served_moves hv).trans (hm'.elim hrest fun hr => hrest hr.1)
  | drew _ _ _ _ _ _ hm' _ _ _ _ _ _ hv =>
    rcases hv with ⟨-, rfl⟩ | hv
    · exact hrest hm'
    · exact (served_moves hv).trans (hrest hm')
  | ignored _ _ hm' => exact hm'.elim hrest hrest
  | polled _ _ _ _ hm' hp => exact (polled_moves hp).trans (hrest hm')
  | polledFree _ hm' => exact absurd (hm'.symm.trans hm) nofun
  | done _ hm' => exact hrest hm'
  | dma _ _ _ hm' => exact hrest hm'
  | scanned _ _ hm' => exact hrest hm'
  | reset _ hm' => exact hrest hm'

/-- The moves that may come before the done step: any but a host's write, a reset and the done step itself. -/
def QuietMove (m : Move) : Prop :=
  (∃ btn time, m = .poll btn time) ∨ (∃ q, m = .renderer q) ∨ (∃ slot, m = .scanOut slot) ∨
    (∃ slot v, m = .dma slot v) ∨ ∃ q, m = .request q ∧ writesNothing q

theorem quietMove_ne {m : Move} (h : QuietMove m) : m ≠ .reset ∧ m ≠ .rendererDone := by
  rcases h with ⟨_, _, rfl⟩ | ⟨_, rfl⟩ | ⟨_, rfl⟩ | ⟨_, _, rfl⟩ | ⟨_, rfl, -⟩ <;> exact ⟨nofun, nofun⟩

theorem quietMove_request {q : Request} (h : QuietMove (.request q)) : writesNothing q := by
  obtain ⟨_, _, ⟨⟩⟩ | ⟨_, ⟨⟩⟩ | ⟨_, ⟨⟩⟩ | ⟨_, _, ⟨⟩⟩ | ⟨_, ⟨⟩, hq⟩ := h
  exact hq

theorem undisturbed_of_quietMove {s : State} {m : Move} {rest : List Move} (hm : s.moves = m :: rest)
    (h : QuietMove m) : Undisturbed s := by
  constructor
  · intro q rest' hq
    obtain rfl := (List.cons.inj (hm.symm.trans hq)).1
    exact quietMove_request h
  · intro rest' hr
    exact (quietMove_ne h).1 (List.cons.inj (hm.symm.trans hr)).1

/-- In the renderer's window: the controller's invariant, an overlay pending and not done, and the overlay's invariant
from the frame at the request. -/
structure InWindow (frame : Memory) (s : State) : Prop where
  controller : ControllerInv s
  pending : s.ovl = true
  notDone : s.ovlDone = false
  overlay : OverlayInv frame s

/-- A quiet move keeps the window open. -/
theorem quietMove_keeps_window {frame : Memory} {s t : State} {m : Move} {rest : List Move} (hs : InWindow frame s)
    (hm : s.moves = m :: rest) (hq : QuietMove m) (h : step s = .next t) :
    InWindow frame t ∧ t.overlaySlots = s.overlaySlots := by
  have hstep := step_pending hs.controller hs.pending (undisturbed_of_quietMove hm hq) h
  obtain ⟨hoverlay, hslots⟩ := pendingStep_keeps hs.overlay hstep
  have hopen : t.ovl = true ∧ t.ovlDone = false := by
    cases hstep with
    | keeps _ hovl hdone => exact ⟨hovl.trans hs.pending, hdone.trans hs.notDone⟩
    | draws _ _ _ hdrew => exact ⟨hdrew.ovl_eq.trans hs.pending, hdrew.ovlDone_eq.trans hs.notDone⟩
    | done _ hdone => exact absurd (List.cons.inj (hm.symm.trans hdone)).1 (quietMove_ne hq).2
    | consumes hdone => exact absurd (hdone.symm.trans hs.notDone) (by decide)
  exact ⟨⟨step_keeps_controllerInv hs.controller h, hopen.1, hopen.2, hoverlay⟩, hslots⟩

/-- The renderer's done step, where it answers next, ends the window with all of M drawn. -/
theorem rendererDone_ends_window {frame : Memory} {s t : State} {rest : List Move} (hs : InWindow frame s)
    (hm : s.moves = .rendererDone :: rest) (h : step s = .next t) :
    t.ovlDone = true ∧ OverlayInv frame t ∧ t.overlaySlots = s.overlaySlots := by
  rw [step_rendererDone hm hs.pending hs.notDone] at h
  split_ifs at h with hall
  cases h
  exact ⟨rfl, overlayInv_of_overlayView_eq hs.overlay rfl fun _ => hall, rfl⟩

/-- Any quiet moves and then the done step: by induction on the moves. -/
theorem run_to_rendererDone {frame : Memory} {pre rest : List Move} {s t : State} (hs : InWindow frame s)
    (hm : s.moves = pre ++ .rendererDone :: rest) (hpre : ∀ m ∈ pre, QuietMove m)
    (h : core.run (pre.length + 1) s = .next t) :
    t.ovlDone = true ∧ OverlayInv frame t ∧ t.overlaySlots = s.overlaySlots ∧ t.renderer = s.renderer := by
  induction pre generalizing s with
  | nil =>
    obtain ⟨u, hstep, hrun⟩ := run_succ_next h
    cases (run_zero u).symm.trans hrun
    obtain ⟨hdone, hoverlay, hslots⟩ := rendererDone_ends_window hs hm hstep
    exact ⟨hdone, hoverlay, hslots, step_keeps_renderer hstep⟩
  | cons m ms ih =>
    obtain ⟨u, hstep, hrun⟩ := run_succ_next h
    obtain ⟨hu, hslots⟩ := quietMove_keeps_window hs hm (hpre m List.mem_cons_self) hstep
    obtain ⟨hdone, hoverlay, hslots', hrenderer⟩ :=
      ih hu (step_moves hm hstep) (fun m' hm' => hpre m' (List.mem_cons_of_mem m hm')) hrun
    exact ⟨hdone, hoverlay, hslots'.trans hslots, hrenderer.trans (step_keeps_renderer hstep)⟩

/-- Every slot of M is a visible pixel (R200). -/
theorem visible_of_mem_overlaySlots {s : State} {j : Nat} (hj : j ∈ s.overlaySlots) : visible j := by
  obtain ⟨p, -, hx, hx', hy, hy', hslot⟩ := mem_overlaySlots.mp hj
  unfold visible
  omega

/-- Settles O58: the overlay's invariant holds along the run, and at its end all of M is drawn. -/
theorem overlayChangesItsPixelsOnly : Obligations.OverlayChangesItsPixelsOnly := by
  unfold Obligations.OverlayChangesItsPixelsOnly
  intro s t pre rest hs ho hd hinked hm hpre h
  have hwindow : InWindow s.fb s := ⟨hs, ho, hd, overlayInv_of_nothing_drawn rfl hinked hd⟩
  obtain ⟨hdone, hoverlay, hslots, hrenderer⟩ := run_to_rendererDone hwindow hm hpre h
  refine ⟨hdone, fun j hj => visible_of_mem_overlaySlots hj, fun j hj => ?_, fun j hj => ?_⟩
  · rw [hoverlay.drawn, if_pos (hoverlay.whole hdone j (hslots ▸ hj)), hrenderer]
  · rw [hoverlay.drawn, if_neg fun hin => hj (hslots ▸ hoverlay.inside j hin)]

end Sys2Proof.Proofs.PendingOverlay

/-! SUPPORT. The scenario of spec/43_capture_controller.md R207: capture, mirror, capture again. -/

namespace Sys2Proof.Proofs.Recapture

open Sys2Proof Sys2Proof.Machine Sys2Proof.Safety Sys2Proof.Statements
open Sys2Proof.Proofs.Overlay Sys2Proof.Proofs.CaptureController

/-- A run continues from where its first part ends. -/
theorem run_add {k : Nat} (l : Nat) {s t : State} (h : core.run k s = .next t) :
    core.run (k + l) s = core.run l t := by
  induction k generalizing s with
  | zero =>
    cases (run_zero s).symm.trans h
    rw [Nat.zero_add]
  | succ k ih =>
    obtain ⟨u, hstep, hrun⟩ := run_succ_next h
    rw [Nat.add_right_comm, run_succ hstep, ih hrun]

/-- A run whose first step and whose rest answer next. -/
theorem run_step {k : Nat} {s t u : State} (hstep : step s = .next t) (hrun : core.run k t = .next u) :
    core.run (k + 1) s = .next u := (run_succ hstep).trans hrun

/-! ## The polls of the scenario -/

section Polls

variable {s : State} {time : TimeOfDay} {rest : List Move}

theorem step_captures (hm : s.moves = .poll 0x1 time :: rest) (hc : s.ctl = .streaming) (hd : s.dbw = 0) :
    step s = .next { after s rest with vctl := 0x0, hist := s.hist ++ [.vctl 0x0], ctl := .capturing, dbw := 0x1 } :=
  streamingWaitsForCapture s 0x1 time rest hm hc hd

theorem step_holds (hm : s.moves = .poll 0x1 time :: rest) (hc : s.ctl ≠ .halted) (hd : s.dbw = BitVec.twoPow 4 0) :
    step s = .next (after s rest) :=
  debounceWaitsForTheBit s 0x1 time rest 0 hm hc (by decide) hd

theorem step_releases {i : Nat} (hm : s.moves = .poll 0x0 time :: rest) (hc : s.ctl ≠ .halted) (hi : i < 4)
    (hd : s.dbw = BitVec.twoPow 4 i) : step s = .next { after s rest with dbw := 0 } := by
  rw [debounceWaitsForTheBit s 0x0 time rest i hm hc hi hd, if_neg (by simp)]

theorem step_requests (hm : s.moves = .poll 0x0 time :: rest) (hc : s.ctl = .capturing) (hd : s.dbw = 0)
    (ho : s.ovl = false) :
    step s = .next { after s rest with
      hist := s.hist ++ [.ovlReq (wrapInc s.cnt) time], cnt := wrapInc s.cnt, ovl := true, ovlDone := false,
      ovlTime := time, inked := [] } :=
  (step_poll hm).trans ((pollStep_capturing (s := after s rest) 0x0 time hc hd).trans
    (congrArg _ (stepCapturing_requests (s := after s rest) time ho)))

theorem step_consumes (hm : s.moves = .poll 0x0 time :: rest) (hc : s.ctl = .capturing) (hd : s.dbw = 0)
    (ho : s.ovl = true) (hdone : s.ovlDone = true) :
    step s = .next { after s rest with ovl := false, ovlDone := false, ctl := .frozenOverlaid } :=
  (step_poll hm).trans ((pollStep_capturing (s := after s rest) 0x0 time hc hd).trans
    (congrArg _ (stepCapturing_consumes (s := after s rest) time ho hdone)))

theorem step_opens (hm : s.moves = .poll 0x0 time :: rest) (hc : s.ctl = .frozenOverlaid) (hd : s.dbw = 0) :
    step s = .next { after s rest with ctl := .editSelect } :=
  (overlaidOpensAndHaltedStays s 0x0 time rest hm).1 hc hd

theorem step_mirrors (hm : s.moves = .poll 0x2 time :: rest) (hc : s.ctl = .editSelect) (hd : s.dbw = 0) :
    step s = .next { after s rest with fb := mirrorFrame Config.geometry s.fb, dbw := 0x2 } :=
  editSelectActsOnTheLowestBit s 0x2 time rest hm hc hd

theorem step_rearms (hm : s.moves = .poll 0x1 time :: rest) (hc : s.ctl = .editSelect) (hd : s.dbw = 0) :
    step s = .next { after s rest with vctl := 0x4, hist := s.hist ++ [.vctl 0x4], ctl := .streaming, dbw := 0x1 } :=
  editSelectActsOnTheLowestBit s 0x1 time rest hm hc hd

end Polls

/-! ## The two runs of polls, before the overlay and after it

In each step of a run the side conditions are tactic blocks, so that the state they are about is read off the run. -/

/-- The polls up to the overlay request. -/
def capturePolls (time : TimeOfDay) : List Move :=
  [.poll 0x1 time, .poll 0x1 time, .poll 0x0 time, .poll 0x0 time]

/-- The polls from the overlay's done to STREAMING, with one mirror. -/
def mirrorPolls (time : TimeOfDay) : List Move :=
  [.poll 0x0 time, .poll 0x0 time, .poll 0x2 time, .poll 0x0 time, .poll 0x1 time, .poll 0x0 time]

/-- The state that `capturePolls` leaves, with an overlay requested for the counter `c`. -/
def requested (s : State) (c : BitVec 16) (time : TimeOfDay) (rest : List Move) : State :=
  { after s rest with
    ctl := .capturing, dbw := 0, vctl := 0x0, hist := s.hist ++ [.vctl 0x0] ++ [.ovlReq c time],
    cnt := c, ovl := true, ovlDone := false, ovlTime := time, inked := [] }

theorem run_capturePolls {s : State} {time : TimeOfDay} {rest : List Move}
    (hm : s.moves = capturePolls time ++ rest) (hc : s.ctl = .streaming) (hd : s.dbw = 0) (ho : s.ovl = false) :
    core.run (capturePolls time).length s = .next (requested s (wrapInc s.cnt) time rest) := by
  refine run_step (step_captures hm hc hd) ?_
  refine run_step (step_holds (by rfl) (by exact nofun) (by rfl)) ?_
  refine run_step (step_releases (i := 0) (by rfl) (by exact nofun) (by decide) (by rfl)) ?_
  refine run_step (step_requests (by rfl) (by rfl) (by rfl) (by exact ho)) ?_
  exact run_zero _

theorem run_mirrorPolls {s : State} {time : TimeOfDay} (hm : s.moves = mirrorPolls time) (hc : s.ctl = .capturing)
    (hd : s.dbw = 0) (ho : s.ovl = true) (hdone : s.ovlDone = true) :
    core.run (mirrorPolls time).length s = .next { after s [] with
      ctl := .streaming, dbw := 0, vctl := 0x4, hist := s.hist ++ [.vctl 0x4], ovl := false, ovlDone := false,
      fb := mirrorFrame Config.geometry s.fb } := by
  refine run_step (step_consumes hm hc hd ho hdone) ?_
  refine run_step (step_opens (by rfl) (by rfl) (by exact hd)) ?_
  refine run_step (step_mirrors (by rfl) (by rfl) (by exact hd)) ?_
  refine run_step (step_releases (i := 1) (by rfl) (by exact nofun) (by decide) (by rfl)) ?_
  refine run_step (step_rearms (by rfl) (by rfl) (by rfl)) ?_
  refine run_step (step_releases (i := 0) (by rfl) (by exact nofun) (by decide) (by rfl)) ?_
  exact run_zero _

/-- Settles O38: the polls up to the request, the overlay's moves, and the polls that mirror and re-arm. -/
theorem captureMirrorRecapture : Obligations.CaptureMirrorRecapture := by
  unfold Obligations.CaptureMirrorRecapture
  intro time s hc hd ho hcnt hhist hm
  have hcapture := run_capturePolls (hm.trans (List.append_assoc ..)) hc hd ho
  rw [hcnt, show wrapInc 0 = 1 by decide] at hcapture
  obtain ⟨u, hoverlay, hu, hread⟩ :=
    run_overlayMoves (s := requested s 1 time (overlayMoves s.renderer 1 time ++ mirrorPolls time)) rfl rfl rfl rfl
  obtain ⟨hum, huc, hud, huo, hudone, hucnt, huhist, huflt⟩ : u.moves = mirrorPolls time ∧ u.ctl = .capturing ∧
      u.dbw = 0 ∧ u.ovl = true ∧ u.ovlDone = true ∧ u.cnt = 1 ∧ u.hist = [.vctl 0x0, .ovlReq 1 time] ∧
      u.fltCause = s.fltCause := by
    rw [hu]
    refine ⟨rfl, rfl, rfl, rfl, rfl, rfl, ?_, rfl⟩
    simp [requested, after, hhist]
  have hmirror := run_mirrorPolls hum huc hud huo hudone
  have hrun : core.run s.moves.length s = core.run (mirrorPolls time).length u := by
    rw [hm, List.length_append, List.length_append]
    exact run_add _ ((run_add _ hcapture).trans hoverlay)
  refine ⟨_, hrun.trans hmirror, rfl, rfl, rfl, hucnt, rfl, congrArg (· ++ _) huhist, huflt, fun x y hx hy => ?_⟩
  have hmirrored := memRead_mirrorFrame_visible (g := Config.geometry) (by decide) u.fb hx hy
  exact hmirrored.trans (hread _)

end Sys2Proof.Proofs.Recapture

/-! SUPPORT. Faults (spec/60_exceptions.md): a request that does not respond OK changes what R233 lists and nothing else,
and the first-fault record stands until reset. -/

namespace Sys2Proof.Proofs.Faults

open Sys2Proof Sys2Proof.Machine Sys2Proof.Statements
open Sys2Proof.Proofs.StateRecord Sys2Proof.Proofs.Encoding Sys2Proof.Proofs.Codec Sys2Proof.Proofs.Accessor
open Sys2Proof.Proofs.FrameTransforms Sys2Proof.Proofs.GrayStability

/-! ## Faults are precise (R231, R233) -/

/-- How serving the word `q` in `s` may leave `t`: with response OK, or as one fault that names `q`'s own fields leaves
`s`. -/
inductive Precise (q : Request) (s : State) : State → Prop
  | ok {t : State} (rdata : BitVec 32) : t.resp = some ⟨0, rdata⟩ → Precise q s t
  | fault (code : FaultCode) : Precise q s (faulted s code.code (opField q) (fieldA q) (fieldB q))

/-- A fault that names the fields a word was built from. -/
theorem precise_faulted_word (code : FaultCode) (op : Code) (a b c : Operand) (s : State) :
    Precise (word op a b c) s (faulted s code.code op a b) := by
  simpa using Precise.fault (q := word op a b c) (s := s) code

theorem transform_precise (op : Code) (run : Memory → Memory) (s : State) :
    Precise (word op 0 0 0) s (transform op run s) := by
  by_cases hc : s.ctl = .editSelect
  · rw [transform_editSelect hc]
    exact .ok 0 rfl
  · rw [transform_of_ne_editSelect hc]
    exact precise_faulted_word .stateViolation op 0 0 0 s

/-- A well-formed operation answers its word precisely. FGET and FSET can fault by their coordinate and a transform by
the control state; CX5 and CX6 fault only for a term that no word decodes to (log entry 14). -/
theorem exec_precise {i : Instr} (hwf : i.wellFormed = true) (s : State) :
    ∃ t, exec i s = .next t ∧ Precise (encode i) s t := by
  cases i with
  | cx5 v => exact ⟨_, exec_cx5 (of_decide_eq_true hwf) s, .ok _ rfl⟩
  | cx6 v => exact ⟨_, exec_cx6 (of_decide_eq_true hwf) s, .ok _ rfl⟩
  | fget x y =>
    by_cases h : onFrame x y
    · exact ⟨_, exec_fget_of_onFrame s h, .ok _ rfl⟩
    · exact ⟨_, exec_fget_of_not_onFrame s h, precise_faulted_word .outOfBounds 0x5 x y 0 s⟩
  | fset x y p =>
    by_cases h : onFrame x y
    · exact ⟨_, exec_fset_of_onFrame p s h, .ok _ rfl⟩
    · exact ⟨_, exec_fset_of_not_onFrame p s h, precise_faulted_word .outOfBounds 0x6 x y p s⟩
  | xmir => exact ⟨_, exec_xmir s, transform_precise 0xB (mirrorFrame Config.geometry) s⟩
  | xgry => exact ⟨_, exec_xgry s, transform_precise 0xC (grayFrame Config.geometry) s⟩
  | xinv => exact ⟨_, exec_xinv s, transform_precise 0xD (invertFrame Config.geometry) s⟩
  | _ => exact ⟨_, rfl, .ok _ rfl⟩

theorem illegalRequest_precise (q : Request) (s : State) : Precise q s (s.illegalRequest q) := by
  rw [State.illegalRequest, raiseFault_eq_faulted]
  exact .fault .illegalRequest

/-- Every accepted request, of either requester, is answered precisely. -/
theorem issue_precise (who : Requester) (q : Request) (s : State) : ∃ t, issue who q s = .next t ∧ Precise q s t := by
  unfold issue
  split
  · exact ⟨_, rfl, illegalRequest_precise q s⟩
  · next i hd =>
    obtain ⟨hwf, rfl⟩ := encode_of_decode hd
    split_ifs
    · exact ⟨_, rfl, illegalRequest_precise _ s⟩
    · exact exec_precise hwf s

/-- Settles O40: a request that is not accepted gives no response, and an accepted one is answered precisely. -/
theorem faultsArePrecise : Obligations.FaultsArePrecise := by
  unfold Obligations.FaultsArePrecise
  intro q s t r hnone hserve hresp hstatus
  unfold serveRequest at hserve
  split_ifs at hserve
  · cases hserve
    cases hnone.symm.trans hresp
  · obtain ⟨u, hissue, hprecise⟩ := issue_precise .servicePort q s
    cases hserve.symm.trans hissue
    cases hprecise with
    | ok rdata hok =>
      cases hok.symm.trans hresp
      exact absurd rfl hstatus
    | fault code =>
      cases hresp
      exact ⟨code_cases code, rfl⟩

/-! ## The record is sticky (R235) -/

/-- The first-fault record (spec/10_state.md R28, R29). -/
def faultRecord (s : State) : Code × Code × Operand × Operand := (s.fltCause, s.fltOp, s.fltX, s.fltY)

/-- A fault after the first gives its response and its event only. -/
theorem raiseFault_of_recorded {s : State} (hs : s.fltCause ≠ 0) (code : FaultCode) (op : Code) (a b : Operand) :
    s.raiseFault code op a b
      = { s with hist := s.hist ++ [.fault code.code op a b], resp := some ⟨code.code, 0⟩ } := by
  simp only [raiseFault_eq_faulted, faulted, if_neg hs]

theorem served_keeps_faultRecord {s t : State} (hs : s.fltCause ≠ 0) (h : Served s t) :
    faultRecord t = faultRecord s := by
  cases h with
  | responds => rfl
  | writes => rfl
  | faults code op a b => rw [raiseFault_of_recorded hs]; rfl

theorem polled_keeps_faultRecord {s t : State} (h : Polled s t) : faultRecord t = faultRecord s :=
  congrArg Prod.snd (polled_faultView h)

/-- Only a served request can raise a fault, and only reset clears the record. -/
theorem step_keeps_faultRecord {s t : State} (hs : s.fltCause ≠ 0) (h : step s = .next t)
    (hreset : ∀ rest, s.moves ≠ .reset :: rest) : faultRecord t = faultRecord s := by
  cases step_stepped h with
  | served _ rest _ _ _ hv => exact served_keeps_faultRecord (s := s.took rest) hs hv
  | drew _ _ _ slot rest _ _ _ _ _ _ _ _ hv =>
    rcases hv with ⟨-, rfl⟩ | hv
    · rfl
    · exact served_keeps_faultRecord (s := (s.took rest).markInked slot) hs hv
  | polled _ _ rest _ _ hp => exact polled_keeps_faultRecord (s := s.took rest) hp
  | polledFree _ _ hp => exact polled_keeps_faultRecord (s := { s with draws := s.draws + 1, resp := none }) hp
  | reset rest hm => exact absurd hm (hreset rest)
  | _ => rfl

/-- Settles O41. -/
theorem faultRecordIsSticky : Obligations.FaultRecordIsSticky := by
  unfold Obligations.FaultRecordIsSticky
  refine ⟨fun s t hs h hreset => ?_, fun s rest hm => ?_, fun s code op a b hs => ?_⟩
  · simpa only [faultRecord, Prod.mk.injEq] using step_keeps_faultRecord hs h hreset
  · exact ⟨resetBlock (s.took rest), step_cons hm, rfl, rfl, rfl, rfl⟩
  · exact raiseFault_of_recorded hs code op a b

end Sys2Proof.Proofs.Faults
